-- ==== Sys2Proof/Word.lean ====
section
/-! DEFINITION. The data types of ADEC: byte, sample, register word, ADPCM code, channel, capacity (spec/00_scope.md R7, R10). -/

namespace Sys2Proof

/-- A byte, unsigned 0 to 255 (R10). -/
abbrev Byte := BitVec 8

/-- A 16-bit sample or header field, two's complement (`SAMPLE_W`, R7, R10). -/
abbrev Half := BitVec 16

/-- A register word (`REG_W`, R7). `delta`, `coeff1`, `coeff2` are words read as two's complement (`ARITH_W`, R10). -/
abbrev Word := BitVec 32

/-- A 4-bit ADPCM code (`NIBBLE_W`, R7). -/
abbrev Nibble := BitVec 4

/-- The channel, i.e. which predictor register set: `ch[0]` or `ch[1]` (`NCHAN_MAX` = 2, R7, R34). -/
inductive Chan where
  | ch0
  | ch1
deriving DecidableEq, Repr

/-- The size of an input or output space: 0 to 2^31 - 1 (R7, R8). -/
abbrev Cap := Fin (2 ^ 31)

end Sys2Proof
end

