-- ==== Sys2Proof/Syntax.lean ====
section
/-! DEFINITION. The commands of ADEC-CMD version 1 (spec/30_encoding.md R71), one constructor per row of spec/opcode_table.json. -/

namespace Sys2Proof

/-- A command. Only ADPCM.NIB carries operands in its word (R72): the channel `c` and the ADPCM code `nibble`. -/
inductive Instr where
  /-- ALAW.DEC: A-law decode of the input buffer (R102). -/
  | alawDec
  /-- ADPCM.DEC: MS-ADPCM decode of the input buffer as whole blocks (R122). -/
  | adpcmDec
  /-- ADPCM.BLK: decode of one MS-ADPCM block (R121). -/
  | adpcmBlk
  /-- ADPCM.NIB c, nibble: one nibble expansion (R120). -/
  | adpcmNib (c : Chan) (nibble : Nibble)
  /-- PASS: pass-through copy (R140). -/
  | pass
  /-- DEC: decode selected by FMT_TAG (R141). -/
  | dec
deriving DecidableEq, Repr

end Sys2Proof
end

