-- ==== Sys2Proof/Config.lean ====
section
/-! DEFINITION. What an instance of the block fixes (its two capacities, R7) and the free values: what the spec
leaves unspecified after a reset (spec/10_state.md R44, spec/93_implementation_defined.md U1, U2). -/

namespace Sys2Proof

/-- The open parameters of an instance: `IN_CAP` and `OUT_CAP` (R7, R33, U18). No transition changes them (R21). -/
structure Params where
  inCap  : Cap
  outCap : Cap
deriving DecidableEq, Repr

/-- The parameters of the instance that `State.reset` is: both capacities the largest the spec allows.
DESIGN CHOICE, log entry 2 (unsafe for a claim about `State.reset` alone): the spec leaves them open. -/
def Config.params : Params := { inCap := ⟨2147483647, by decide⟩, outCap := ⟨2147483647, by decide⟩ }

-- The free values. None has a body: nothing can be proved of their value. The first argument is the number of
-- resets since the run began (State.epoch), so that every reset draws anew. DESIGN CHOICE, log entries 3, 4, 5.

/-- `ch[c].coeff1` after a reset: unspecified (R44). -/
opaque Config.freeCoeff1 : Nat → Chan → Word

/-- `ch[c].coeff2` after a reset: unspecified (R44). -/
opaque Config.freeCoeff2 : Nat → Chan → Word

/-- `ch[c].delta` after a reset: unspecified (R44). -/
opaque Config.freeDelta : Nat → Chan → Word

/-- `ch[c].sample1` after a reset: unspecified (R44). -/
opaque Config.freeSample1 : Nat → Chan → Half

/-- `ch[c].sample2` after a reset: unspecified (R44). -/
opaque Config.freeSample2 : Nat → Chan → Half

/-- The byte at an offset of IN that nothing has written since the reset: unspecified (R44). -/
opaque Config.freeIn : Nat → Nat → Byte

/-- The byte at an offset of OUT that nothing has written since the reset: unspecified (R44). -/
opaque Config.freeOut : Nat → Nat → Byte

end Sys2Proof
end

