-- ==== Sys2Proof/Machine/HostOp.lean ====
section
/-! DEFINITION. What the host can do to the block, as data: one access of REG, IN or OUT, or the platform's reset
(spec/10_state.md R20, R22; spec/20_memory.md R50 to R52; spec/70_reset_and_hazards.md R190). -/

namespace Sys2Proof.Machine

/-- The width of a register-space access. Only `word` is in the programmer's model (R45). -/
inductive AccessWidth where
  | byte
  | half
  | word
deriving DecidableEq, Repr

/-- One access of the host (or a reset of the platform), in the host's own order (R60). -/
inductive HostOp where
  /-- Write `value` to REG offset `off`; a word write of CMD starts a command (R23). -/
  | regWrite (width : AccessWidth) (off : Nat) (value : Word)
  /-- Read REG offset `off`. -/
  | regRead (width : AccessWidth) (off : Nat)
  /-- Write a byte of IN (R51). -/
  | inWrite (off : Nat) (value : Byte)
  /-- Read a byte of IN (R51). -/
  | inRead (off : Nat)
  /-- Write a byte of OUT (R52). -/
  | outWrite (off : Nat) (value : Byte)
  /-- Read a byte of OUT (R52). -/
  | outRead (off : Nat)
  /-- The platform's reset input, between two accesses (R190). -/
  | reset
deriving DecidableEq, Repr

end Sys2Proof.Machine
end

