-- ==== Sys2Proof/WellFormed.lean ====
section
/-! DEFINITION. Which terms are well formed: commands and host accesses. -/

namespace Sys2Proof

/-- Every command term is well formed: its operands are typed by their ranges (c in {0, 1}, nibble in 0 to 15, R72), so no
ill-formed term can be written. -/
def Instr.wellFormed : Instr → Bool
  | .alawDec => true
  | .adpcmDec => true
  | .adpcmBlk => true
  | .adpcmNib _ _ => true
  | .pass => true
  | .dec => true

/-- A register access of the programmer's model: an aligned 32-bit word at an offset of 0x00 to 0x7F (R45). -/
def regAccessOk (width : Machine.AccessWidth) (off : Nat) : Bool :=
  width == .word && off % 4 == 0 && decide (off < 0x80)

/-- A host access of the programmer's model on an instance with parameters `p`: register accesses by R45, byte accesses
inside IN (R51) or OUT (R52), the reset always (R190). -/
def Machine.HostOp.wellFormed (p : Params) : Machine.HostOp → Bool
  | .regWrite width off _ => regAccessOk width off
  | .regRead width off => regAccessOk width off
  | .inWrite off _ => decide (off < p.inCap.val)
  | .inRead off => decide (off < p.inCap.val)
  | .outWrite off _ => decide (off < p.outCap.val)
  | .outRead off => decide (off < p.outCap.val)
  | .reset => true

end Sys2Proof
end

