-- ==== Sys2Proof/Decode.lean ====
section
/-! DEFINITION. The command word CMDW: its decoder, total on every word, rejecting by name, and its encoder (spec/30_encoding.md R70 to R74). -/

namespace Sys2Proof

/-- Why a word is no command: the three clauses of R73, in its order. -/
inductive DecodeError where
  /-- `w[31:9]` is not 0. -/
  | zeroFieldSet
  /-- `w[3:0]` is 0 or is 7 or more. -/
  | noSuchOp
  /-- `w[3:0]` is not 4 and `w[8:4]` is not 0. -/
  | operandBitsSet
deriving DecidableEq, Repr

/-- Field OP, bits 3:0 (R70). -/
def fieldOp (w : Word) : BitVec 4 := w.extractLsb' 0 4

/-- Field NIB, bits 7:4 (R70). -/
def fieldNib (w : Word) : Nibble := w.extractLsb' 4 4

/-- Field CH, bit 8 (R70), as the channel it selects (R72). -/
def fieldCh (w : Word) : Chan := if w.getLsbD 8 then .ch1 else .ch0

/-- Bits 8:4, the operand bits, which must be 0 for every OP but 4 (R70, R73). -/
def fieldOperand (w : Word) : BitVec 5 := w.extractLsb' 4 5

/-- Field ZERO, bits 31:9 (R70). -/
def fieldZero (w : Word) : BitVec 23 := w.extractLsb' 9 23

/-- A command without operands: legal only with bits 8:4 zero (R73). -/
def bareCommand (w : Word) (i : Instr) : Except DecodeError Instr :=
  if fieldOperand w = 0#5 then .ok i else .error .operandBitsSet

/-- The decoder: the opcode map of R71, with the illegal words of R73 rejected by name. It needs no state (R74). -/
def decode (w : Word) : Except DecodeError Instr :=
  if fieldZero w ≠ 0#23 then .error .zeroFieldSet
  else if fieldOp w = 1#4 then bareCommand w .alawDec
  else if fieldOp w = 2#4 then bareCommand w .adpcmDec
  else if fieldOp w = 3#4 then bareCommand w .adpcmBlk
  else if fieldOp w = 4#4 then .ok (.adpcmNib (fieldCh w) (fieldNib w))
  else if fieldOp w = 5#4 then bareCommand w .pass
  else if fieldOp w = 6#4 then bareCommand w .dec
  else .error .noSuchOp

/-- The instruction the decoder reads from a table row's bits. A command is one 32-bit word written to CMD (R70), bit 0
its least significant bit, which is the table's numbering; bits at and above `nbits` are 0. -/
def decodeTableWord (nbits w : Nat) : Option Instr :=
  match decode (BitVec.ofNat 32 (w % 2 ^ nbits)) with
  | .ok i => some i
  | .error _ => none

/-- Bit 8 of the word for a channel (R72). -/
def chanBit : Chan → BitVec 1
  | .ch0 => 0#1
  | .ch1 => 1#1

/-- The word with the given fields, ZERO being 0 (format CMDW, R70). -/
def commandWord (op : BitVec 4) (nib : Nibble) (ch : BitVec 1) : Word := 0#23 ++ ch ++ nib ++ op

/-- The encoder: the exact words of R71. -/
def encode : Instr → Word
  | .alawDec => commandWord 1#4 0#4 0#1
  | .adpcmDec => commandWord 2#4 0#4 0#1
  | .adpcmBlk => commandWord 3#4 0#4 0#1
  | .adpcmNib c nibble => commandWord 4#4 nibble (chanBit c)
  | .pass => commandWord 5#4 0#4 0#1
  | .dec => commandWord 6#4 0#4 0#1

-- Every constructor's decoding, on the words R71 writes out.
theorem decode_alawDec : decode 0x00000001#32 = .ok .alawDec := by decide
theorem decode_adpcmDec : decode 0x00000002#32 = .ok .adpcmDec := by decide
theorem decode_adpcmBlk : decode 0x00000003#32 = .ok .adpcmBlk := by decide
theorem decode_adpcmNib_first : decode 0x00000004#32 = .ok (.adpcmNib .ch0 0#4) := by decide
theorem decode_adpcmNib_ch0_7 : decode 0x00000074#32 = .ok (.adpcmNib .ch0 7#4) := by decide
theorem decode_adpcmNib_last : decode 0x000001F4#32 = .ok (.adpcmNib .ch1 15#4) := by decide
theorem decode_pass : decode 0x00000005#32 = .ok .pass := by decide
theorem decode_dec : decode 0x00000006#32 = .ok .dec := by decide

end Sys2Proof
end

