-- ==== Sys2Proof/Machine/State.lean ====
section
/-! DEFINITION. The state of the block (spec/10_state.md R21, R22, R34), its reset value (R44), and the reasons a step can stop. -/

namespace Sys2Proof.Machine

/-- A predictor register set `ch[c]`, the source's ChannelPredictorState (R34). The three words are read as signed
32-bit, the two samples as signed 16-bit; `sample1` is the most recent one. -/
structure Predictor where
  coeff1  : Word
  coeff2  : Word
  delta   : Word
  sample1 : Half
  sample2 : Half
deriving DecidableEq, Repr

/-- The bytes of IN or OUT that have been written since the reset, by strictly rising offset. An offset that is not
listed has NO value here; the reads of Ops.lean give such a byte its free value (log entry 4). -/
abbrev Memory := List Host.Cell

/-- Everything R21 makes state, the instance's parameters, and the model's own `epoch`, `host` and `readData`. -/
structure State where
  /-- `IN_CAP` and `OUT_CAP` (R33): parameters, changed by no step. -/
  params     : Params
  /-- STATUS (R24). -/
  status     : Word
  /-- FMT_TAG, bits 1:0 (R25). -/
  fmtTag     : BitVec 2
  /-- CHANNELS (R26). -/
  channels   : Word
  /-- BLOCK_ALIGN (R27). -/
  blockAlign : Word
  /-- LEN (R28). -/
  len        : Word
  /-- IN_OFF (R29). -/
  inOff      : Word
  /-- BLK_SIZE (R30). -/
  blkSize    : Word
  /-- OUT_OFF, the output cursor (R31). -/
  outOff     : Word
  /-- RESULT, the sample of the last ADPCM.NIB (R32). -/
  result     : Half
  /-- `ch[0]` (R34). -/
  ch0        : Predictor
  /-- `ch[1]` (R34). -/
  ch1        : Predictor
  /-- The written bytes of IN (R51). -/
  inMem      : Memory
  /-- The written bytes of OUT (R52). -/
  outMem     : Memory
  /-- The model's own: resets since the run began; the argument of the free values (log entry 5). -/
  epoch      : Nat
  /-- The model's own: the host's accesses not yet performed, the next one first (log entry 1). -/
  host       : List HostOp
  /-- The model's own: what the host's latest read returned (log entry 6). -/
  readData   : Word
deriving DecidableEq, Repr

/-- Why the machine stops with a fault. The block's own four faults (R170) are NOT here: they are taken, as next states. -/
inductive Fault where
  /-- Raised by a host byte access of IN at or past `IN_CAP`: there is no such byte (R51). Safe: the machine stops. -/
  | hostOffsetOutsideIn
  /-- Raised by a host byte access of OUT at or past `OUT_CAP`: there is no such byte (R52). Safe: the machine stops. -/
  | hostOffsetOutsideOut
deriving DecidableEq, Repr

/-- Why the model refuses a step. -/
inductive Refusal where
  /-- Raised by a dispatch arm whose command has no meaning yet; no arm is left. Safe: nothing is provable of it. -/
  | notModelled (mnemonic : String)
  /-- Raised by a register access that is no aligned 32-bit word at 0x00 to 0x7F, "not part of the programmer's
  model and a model must refuse them" (R45, U14). Safe. -/
  | regAccessOutsideModel
  /-- Raised by an engine read outside IN, which R54 asks a model to refuse if ever reached (U15); it never is
  (see Laws/Engine.lean). Safe. -/
  | memReadOutsideIn
deriving DecidableEq, Repr

/-- `ch[c]` after reset number `epoch`: all five fields unspecified (R44, U1), each a free value. -/
def Predictor.unspecified (epoch : Nat) (c : Chan) : Predictor where
  coeff1  := Config.freeCoeff1 epoch c
  coeff2  := Config.freeCoeff2 epoch c
  delta   := Config.freeDelta epoch c
  sample1 := Config.freeSample1 epoch c
  sample2 := Config.freeSample2 epoch c

/-- The state after reset number `epoch` of an instance with parameters `p` (R44): STATUS, the configuration and operand
registers and RESULT are 0, the predictor fields and every byte of IN and OUT unspecified. -/
def State.resetWith (p : Params) (epoch : Nat) : State where
  params     := p
  status     := 0#32
  fmtTag     := 0#2
  channels   := 0#32
  blockAlign := 0#32
  len        := 0#32
  inOff      := 0#32
  blkSize    := 0#32
  outOff     := 0#32
  result     := 0#16
  ch0        := Predictor.unspecified epoch .ch0
  ch1        := Predictor.unspecified epoch .ch1
  inMem      := []
  outMem     := []
  epoch      := epoch
  host       := []
  readData   := 0#32

/-- The machine right after its first reset, on the instance of `Config.params`, with no host access pending. -/
def State.reset : State := State.resetWith Config.params 0

end Sys2Proof.Machine
end

