-- ==== Sys2Proof/Machine/Flags.lean ====
section
/-! DEFINITION. The seven sticky STATUS flags (spec/10_state.md R24): setting, clearing, reading. -/

namespace Sys2Proof.Machine

/-- The flags of STATUS (R24). The first four record faults, the last three are informational (R175). -/
inductive Flag where
  | illcmd
  | cfgerr
  | inrange
  | outovf
  | traildrop
  | blkskip
  | predclamp
deriving DecidableEq, Repr

/-- The bit position of a flag (table "STATUS fields", R24). -/
def Flag.bit : Flag → Nat
  | .illcmd => 0
  | .cfgerr => 1
  | .inrange => 2
  | .outovf => 3
  | .traildrop => 8
  | .blkskip => 9
  | .predclamp => 10

/-- The word with a flag's bit alone. -/
def Flag.mask (f : Flag) : Word := 1#32 <<< f.bit

/-- The seven implemented bits of STATUS; "every other bit reads 0 and ignores writes" (R24). -/
def statusBits : Word := 0x0000070F#32

/-- `STATUS.F <- 1` (R11): sticky, no other flag changes. -/
def State.setFlag (s : State) (f : Flag) : State := { s with status := s.status ||| f.mask }

/-- Whether a flag is set. -/
def State.flag (s : State) (f : Flag) : Bool := s.status.getLsbD f.bit

/-- The host's write of STATUS: a 1 clears that flag, a 0 leaves it unchanged (R24). Beside taking a fault this is the only
counterpart of a return from one (R179). -/
def State.clearFlags (s : State) (w : Word) : State := { s with status := s.status &&& ~~~w }

/-- The host's read of STATUS: the seven flags, every other bit 0 (R24). -/
def State.statusRead (s : State) : Word := s.status &&& statusBits

end Sys2Proof.Machine
end

