-- ==== Sys2Proof/Machine/Tables.lean ====
section
/-! DEFINITION. The three read-only constant tables (spec/10_state.md R40; spec/41_adpcm.md R110). -/

namespace Sys2Proof.Machine

/-- `AdaptationTable`, indexed by the unsigned nibble (R110). -/
def adaptationTable : Vector Int 16 :=
  #v[230, 230, 230, 230, 307, 409, 512, 614, 768, 614, 512, 409, 307, 230, 230, 230]

/-- `AdaptCoeff1`, indexed by the clamped predictor index (R110). -/
def adaptCoeff1 : Vector Int 7 := #v[256, 512, 0, 192, 240, 460, 392]

/-- `AdaptCoeff2`, indexed by the clamped predictor index (R110). -/
def adaptCoeff2 : Vector Int 7 := #v[0, -256, 0, 64, 0, -208, -232]

/-- The table index of a predictor index: `min(v, 6)` (R112; `PRED_MAX`, R7; conflict C1). -/
def predIndex (v : Nat) : Fin 7 := ⟨min v 6, by omega⟩

end Sys2Proof.Machine
end

