-- ==== Sys2Proof/Machine/Operands.lean ====
section
/-! DEFINITION. The arithmetic of the block on values, without state: the primitives of spec/00_scope.md R13, the A-law
expander (spec/40_alaw.md R100) and the nibble expansion of one predictor register set (spec/41_adpcm.md R114). -/

namespace Sys2Proof.Machine

/-- `sext_16` of an integer, as the 16-bit pattern a sample register holds: it wraps, never saturates (R13, R14). -/
def sext16 (v : Int) : Half := BitVec.ofInt 16 v

/-- `wrap32`: the value a 32-bit register holds after the integer v is stored into it (R13, R111 (a)). -/
def wrap32 (v : Int) : Int := (BitVec.ofInt 32 v).toInt

/-- `tdiv`: integer division truncating toward zero (R13, R111 (b)). -/
def tdiv (a b : Int) : Int := Int.tdiv a b

/-- `asr`: arithmetic shift right, i.e. floor(v / 2^k) (R13, R111 (c)). -/
def asr (v : Int) (k : Nat) : Int := Int.fdiv v (2 ^ k)

/-- A 16-bit value widened to 32 bits with its sign (`sext_32` of a 16-bit quantity, R32, R38, R113). -/
def widen (h : Half) : Word := h.signExtend 32

/-- `min(a, b)` bytes to process, and other counts, are naturals: the unsigned value of a register (R8, R11). -/
def regNat (w : Word) : Nat := w.toNat

/-- A 32-bit register holding an integer, wrapped (R111 (a)). -/
def toReg (v : Int) : Word := BitVec.ofInt 32 v

/-- The two bytes of a 16-bit quantity, little-endian (R53): bits 7:0. -/
def lowByte (h : Half) : Byte := h.extractLsb' 0 8

/-- The two bytes of a 16-bit quantity, little-endian (R53): bits 15:8. -/
def highByte (h : Half) : Byte := h.extractLsb' 8 8

/-- The 16-bit quantity of two bytes, the low byte first (R53, R54). -/
def halfOfBytes (lo hi : Byte) : Half := hi ++ lo

/-- The high nibble of a byte, `b[7:4]` (R9). -/
def highNibble (b : Byte) : Nibble := b.extractLsb' 4 4

/-- The low nibble of a byte, `b[3:0]` (R9). -/
def lowNibble (b : Byte) : Nibble := b.extractLsb' 0 4

/-- `signedNibble`: nibble - 16 if bit 3 is set, else nibble; -8 to 7 (R72, R114). -/
def signedNibble (nibble : Nibble) : Int :=
  if nibble.getLsbD 3 then (nibble.toNat : Int) - 16 else nibble.toNat

/-- The code after the XOR that undoes the A-law inversion: `y = b XOR 0xD5` (R77, R100 step 1). -/
def alawCode (b : Byte) : Byte := b ^^^ 0xD5#8

/-- The exponent field `y[6:4]` (R77, R100 step 3). -/
def alawExponent (y : Byte) : Nat := (y.extractLsb' 4 3).toNat

/-- The mantissa field `y[3:0]` (R77, R100 step 4). -/
def alawMantissa (y : Byte) : Nat := (y.extractLsb' 0 4).toNat

/-- The magnitude of the code y: steps 4 to 6 of R100. -/
def alawMagnitude (y : Byte) : Nat :=
  let exponent := alawExponent y
  let v := (alawMantissa y <<< 4) + 8
  let v := if exponent ≠ 0 then v + 0x100 else v
  if exponent > 1 then v <<< (exponent - 1) else v

/-- `ALawExpand(b)` as an integer, before step 7's truncation (R100). -/
def alawValue (b : Byte) : Int :=
  let y := alawCode b
  let sign : Int := if y.getLsbD 7 then -1 else 1
  sign * (alawMagnitude y : Int)

/-- `ALawExpand(b)` (R100). -/
def alawExpand (b : Byte) : Half := sext16 (alawValue b)

/-- The prediction of R114 before the nibble's contribution: `tdiv(acc, 256)`. -/
def predict (p : Predictor) : Int :=
  let s1 := p.sample1.toInt
  let s2 := p.sample2.toInt
  let k1 := p.coeff1.toInt
  let k2 := p.coeff2.toInt
  let acc := wrap32 (wrap32 (s1 * k1) + wrap32 (s2 * k2))
  tdiv acc 256

/-- `newSample` of R114, from the old state: the nibble's contribution uses the old `delta`. -/
def newSample (p : Predictor) (nibble : Nibble) : Half :=
  sext16 (wrap32 (predict p + wrap32 (signedNibble nibble * p.delta.toInt)))

/-- The adapted step size of R114: the unsigned nibble indexes the table, the floor is a signed comparison (R111 (e), R126). -/
def newDelta (p : Predictor) (nibble : Nibble) : Int :=
  max (asr (wrap32 (adaptationTable[nibble.toFin] * p.delta.toInt)) 8) 16

/-- `NibbleExpand` on the predictor register set itself (R114): the sample and the set it leaves. -/
def expandNibble (p : Predictor) (nibble : Nibble) : Half × Predictor :=
  (newSample p nibble,
   { p with
     sample2 := p.sample1
     sample1 := newSample p nibble
     delta   := toReg (newDelta p nibble) })

end Sys2Proof.Machine
end

