-- ==== Sys2Proof/Machine/Ops.lean ====
section
/-! DEFINITION. The operations on the state: bytes of IN and OUT, the engine's access primitives (spec/20_memory.md R54,
R55), predictor register sets, taking a fault (spec/60_exceptions.md R171 to R174, R177), and how a command ends. -/

namespace Sys2Proof.Machine

/-- The byte a memory lists at an offset, if any. -/
def Memory.get? : Memory → Nat → Option Byte
  | [], _ => none
  | (x, v) :: m, a => if x = a then some v else Memory.get? m a

/-- List the byte b at offset a, keeping offsets strictly rising. -/
def Memory.set : Memory → Nat → Byte → Memory
  | [], a, b => [(a, b)]
  | (x, v) :: m, a, b =>
    if a < x then (a, b) :: (x, v) :: m
    else if a = x then (a, b) :: m
    else (x, v) :: Memory.set m a b

/-- The canonical form: offsets strictly rising. An unlisted offset has no value in the list, so no entry can equal it. -/
def Memory.wf : Memory → Bool
  | [] => true
  | [_] => true
  | (x, _) :: (y, v) :: m => decide (x < y) && Memory.wf ((y, v) :: m)

/-- Every listed offset is below `n`. -/
def Memory.below (m : Memory) (n : Nat) : Bool := m.all fun cell => decide (cell.1 < n)

/-- `IN_CAP` (R33). -/
def State.inCap (s : State) : Nat := s.params.inCap.val

/-- `OUT_CAP` (R33). -/
def State.outCap (s : State) : Nat := s.params.outCap.val

/-- The byte IN[a]: the last one written, or the unspecified byte of the latest reset (R44, R51). -/
def State.inByte (s : State) (a : Nat) : Byte :=
  match s.inMem.get? a with
  | some b => b
  | none => Config.freeIn s.epoch a

/-- The byte OUT[a]: the last one written, or the unspecified byte of the latest reset (R44, R52). -/
def State.outByte (s : State) (a : Nat) : Byte :=
  match s.outMem.get? a with
  | some b => b
  | none => Config.freeOut s.epoch a

/-- IN[a] <- b. Only the host writes IN (R51). -/
def State.putIn (s : State) (a : Nat) (b : Byte) : State := { s with inMem := s.inMem.set a b }

/-- OUT[a] <- b. -/
def State.putOut (s : State) (a : Nat) (b : Byte) : State := { s with outMem := s.outMem.set a b }

/-- The predictor register set `ch[c]` (R34). -/
def State.ch (s : State) : Chan → Predictor
  | .ch0 => s.ch0
  | .ch1 => s.ch1

/-- Replace the predictor register set `ch[c]`; the other one is untouched (R115 (h)). -/
def State.setCh (s : State) (c : Chan) (p : Predictor) : State :=
  match c with
  | .ch0 => { s with ch0 := p }
  | .ch1 => { s with ch1 := p }

/-- `x[OUT_OFF] <- o` (R31). -/
def State.setOutOff (s : State) (o : Nat) : State := { s with outOff := BitVec.ofNat 32 o }

/-- `x[RESULT] <- v` (R32). -/
def State.setResult (s : State) (v : Half) : State := { s with result := v }

/-- `SelectCoeff(c, v)` (R112): the clamp to 6 sets PREDCLAMP. -/
def selectCoeff (c : Chan) (v : Nat) (s : State) : State :=
  let s := if v > 6 then s.setFlag .predclamp else s
  s.setCh c { s.ch c with
    coeff1 := toReg adaptCoeff1[predIndex v]
    coeff2 := toReg adaptCoeff2[predIndex v] }

/-- `NibbleExpand(c, nibble)` (R114): the sample it returns and the state it leaves. -/
def nibbleExpand (c : Chan) (nibble : Nibble) (s : State) : Half × State :=
  ((expandNibble (s.ch c) nibble).1, s.setCh c (expandNibble (s.ch c) nibble).2)

/-- The four faults of the block (R170), with what they carry. -/
inductive BlockFault where
  | illegalCommand
  | configError
  | inputRange
  | outputOverflow (off : Nat)
deriving DecidableEq, Repr

/-- Taking a fault (R177): it sets its STATUS flag, OutputOverflow writes OUT_OFF with the offset of the write that did not
fit (R174), and nothing is saved anywhere else. -/
def takeFault (f : BlockFault) (s : State) : State :=
  match f with
  | .illegalCommand => s.setFlag .illcmd
  | .configError => s.setFlag .cfgerr
  | .inputRange => s.setFlag .inrange
  | .outputOverflow off => (s.setFlag .outovf).setOutOff off

/-- How a piece of a command ends: it goes on with a value, it raises a fault in the state it has reached (`raise`, R11),
or the model refuses (R54). -/
inductive Engine (α : Type) where
  | ok (a : α) (s : State)
  | raise (f : BlockFault) (s : State)
  | refuse (r : Refusal)
deriving DecidableEq, Repr

/-- One piece of a command after another; nothing after a `raise` happens (R11). -/
def Engine.andThen {α β : Type} (x : Engine α) (f : α → State → Engine β) : Engine β :=
  match x with
  | .ok a s => f a s
  | .raise e s => .raise e s
  | .refuse r => .refuse r

/-- `MemRead(IN + off, 1)` (R54). -/
def memRead1 (off : Nat) (s : State) : Engine Byte :=
  if off + 1 ≤ s.inCap then .ok (s.inByte off) s else .refuse .memReadOutsideIn

/-- `MemRead(IN + off, 2)`, little-endian (R53, R54). -/
def memRead2 (off : Nat) (s : State) : Engine Half :=
  if off + 2 ≤ s.inCap then .ok (halfOfBytes (s.inByte off) (s.inByte (off + 1))) s else .refuse .memReadOutsideIn

/-- `MemWrite(OUT + off, 1, b)` (R55). -/
def memWrite1 (off : Nat) (b : Byte) (s : State) : Engine Unit :=
  if off + 1 > s.outCap then .raise (.outputOverflow off) s else .ok () (s.putOut off b)

/-- `MemWrite(OUT + off, 2, v)`: both bytes, low byte first, or none (R53, R55). -/
def memWrite2 (off : Nat) (v : Half) (s : State) : Engine Unit :=
  if off + 2 > s.outCap then .raise (.outputOverflow off) s
  else .ok () ((s.putOut off (lowByte v)).putOut (off + 1) (highByte v))

/-- The end of a decode or copy command: completed with the output cursor o, `x[OUT_OFF] <- o` (R31); or ended by a fault,
which is taken (R177). -/
def finish : Engine Nat → Host.Outcome State Fault Refusal
  | .ok o s => .next (s.setOutOff o)
  | .raise f s => .next (takeFault f s)
  | .refuse r => .refused r

end Sys2Proof.Machine
end

