-- ==== Sys2Proof/Machine/Adpcm.lean ====
section
/-! DEFINITION. The MS-ADPCM commands ADPCM.NIB, ADPCM.BLK, ADPCM.DEC (spec/41_adpcm.md). -/

namespace Sys2Proof.Machine

/-- The channels of a stream with `nch` channels, in order: `for c in 0 .. nch-1`, nch being 1 or 2 (R116, R80). -/
def channelList (stereo : Bool) : List Chan := if stereo then [.ch0, .ch1] else [.ch0]

/-- Whether CHANNELS is legal for the ADPCM commands (R26, R172). -/
def channelsLegal (s : State) : Bool := regNat s.channels == 1 || regNat s.channels == 2

/-- `stereo = (nch = 2)` (R116 step 1). -/
def isStereo (s : State) : Bool := regNat s.channels == 2

/-- R116 step 4: a predictor-index byte per channel; the value answered is the input cursor p. -/
def loadPredictors : List Chan → (p : Nat) → State → Engine Nat
  | [], p, s => .ok p s
  | c :: cs, p, s =>
    (memRead1 p s).andThen fun v s =>
    loadPredictors cs (p + 1) (selectCoeff c v.toNat s)

/-- R116 step 5: `delta` per channel, read as a signed 16-bit field and widened with its sign (R113); no floor (R126). -/
def loadDeltas : List Chan → (p : Nat) → State → Engine Nat
  | [], p, s => .ok p s
  | c :: cs, p, s =>
    (memRead2 p s).andThen fun v s =>
    loadDeltas cs (p + 2) (s.setCh c { s.ch c with delta := widen v })

/-- R116 step 6: `sample1` per channel. -/
def loadSample1s : List Chan → (p : Nat) → State → Engine Nat
  | [], p, s => .ok p s
  | c :: cs, p, s =>
    (memRead2 p s).andThen fun v s =>
    loadSample1s cs (p + 2) (s.setCh c { s.ch c with sample1 := v })

/-- R116 step 7: `sample2` per channel. -/
def loadSample2s : List Chan → (p : Nat) → State → Engine Nat
  | [], p, s => .ok p s
  | c :: cs, p, s =>
    (memRead2 p s).andThen fun v s =>
    loadSample2s cs (p + 2) (s.setCh c { s.ch c with sample2 := v })

/-- R116 steps 4 to 7: the whole block header, field-major (R79, R80). -/
def loadHeader (cs : List Chan) (p : Nat) (s : State) : Engine Nat :=
  (loadPredictors cs p s).andThen fun p s =>
  (loadDeltas cs p s).andThen fun p s =>
  (loadSample1s cs p s).andThen fun p s =>
  loadSample2s cs p s

/-- `Emit(v)` (R116): write the sample at the output cursor and advance it. -/
def emit (v : Half) (outOff : Nat) (s : State) : Engine Nat :=
  (memWrite2 outOff v s).andThen fun _ s => .ok (outOff + 2) s

/-- R116 step 8, first half: `sample1` of each channel. -/
def emitSample1s : List Chan → (outOff : Nat) → State → Engine Nat
  | [], outOff, s => .ok outOff s
  | c :: cs, outOff, s =>
    (emit (s.ch c).sample1 outOff s).andThen fun outOff s => emitSample1s cs outOff s

/-- R116 step 8, second half: `sample2` of each channel. -/
def emitSample2s : List Chan → (outOff : Nat) → State → Engine Nat
  | [], outOff, s => .ok outOff s
  | c :: cs, outOff, s =>
    (emit (s.ch c).sample2 outOff s).andThen fun outOff s => emitSample2s cs outOff s

/-- `EmitNibble(c, nibble)` (R116): the capacity is tested BEFORE the expansion changes the state (R174). -/
def emitNibble (c : Chan) (nibble : Nibble) (outOff : Nat) (s : State) : Engine Nat :=
  if outOff + 2 > s.outCap then .raise (.outputOverflow outOff) s
  else emit (nibbleExpand c nibble s).1 outOff (nibbleExpand c nibble s).2

/-- R116 step 9 for `n` data bytes from input offset p: high nibble through `ch[0]`, low nibble through `ch[1]` if stereo,
else through `ch[0]` (R81, R118). -/
def dataLoop (stereo : Bool) : (n : Nat) → (p outOff : Nat) → State → Engine Nat
  | 0, _, outOff, s => .ok outOff s
  | n + 1, p, outOff, s =>
    (memRead1 p s).andThen fun d s =>
    (emitNibble .ch0 (highNibble d) outOff s).andThen fun outOff s =>
    (emitNibble (if stereo then .ch1 else .ch0) (lowNibble d) outOff s).andThen fun outOff s =>
    dataLoop stereo n (p + 1) outOff s

/-- R116 step 2: the block size cut to a non-zero smaller BLOCK_ALIGN. -/
def clampBlock (blockAlign blockSize : Nat) : Nat :=
  if blockAlign ≠ 0 ∧ blockAlign < blockSize then blockAlign else blockSize

/-- The bytes of a block header: 7 per channel (R79, R80). -/
def headerSize (stereo : Bool) : Nat := if stereo then 14 else 7

/-- R116 steps 4 to 9 for a block of `bs` bytes that is neither empty nor too short. -/
def decodeBody (inOff bs outOff : Nat) (s : State) : Engine Nat :=
  let stereo := isStereo s
  (loadHeader (channelList stereo) inOff s).andThen fun p s =>
  (emitSample1s (channelList stereo) outOff s).andThen fun outOff s =>
  (emitSample2s (channelList stereo) outOff s).andThen fun outOff s =>
  dataLoop stereo (bs - headerSize stereo) p outOff s

/-- `DecodeBlock(inOff, blockSize, outOff)` (R116): it answers the new output offset. -/
def decodeBlock (inOff blockSize outOff : Nat) (s : State) : Engine Nat :=
  if blockSize = 0 then .ok outOff (s.setFlag .blkskip)
  else
    let bs := clampBlock (regNat s.blockAlign) blockSize
    if bs < headerSize (isStereo s) then .ok outOff (s.setFlag .blkskip)
    else if inOff + bs > s.inCap then .raise .inputRange s
    else decodeBody inOff bs outOff s

/-- ADPCM.NIB c, nibble (R120): total, no flag, no fault. -/
def execAdpcmNib (c : Chan) (nibble : Nibble) (s : State) : Host.Outcome State Fault Refusal :=
  .next ((nibbleExpand c nibble s).2.setResult (nibbleExpand c nibble s).1)

/-- ADPCM.BLK (R121). -/
def execAdpcmBlk (s : State) : Host.Outcome State Fault Refusal :=
  if channelsLegal s then finish (decodeBlock (regNat s.inOff) (regNat s.blkSize) (regNat s.outOff) s)
  else finish (.raise .configError s)

/-- The loop of R122: `n` blocks to go, block k next, at input offset k * B. -/
def blockLoop (B : Nat) : (n : Nat) → (k outOff : Nat) → State → Engine Nat
  | 0, _, outOff, s => .ok outOff s
  | n + 1, k, outOff, s =>
    (decodeBlock (k * B) B outOff s).andThen fun outOff s => blockLoop B n (k + 1) outOff s

/-- R122 from the splitting on: the trailing bytes are dropped with TRAILDROP, then the whole blocks are decoded. -/
def decodeBlocks (B len : Nat) (s : State) : Engine Nat :=
  blockLoop B (len / B) 0 0 (if len % B ≠ 0 then s.setFlag .traildrop else s)

/-- ADPCM.DEC (R122), its checks in the order of R176. -/
def execAdpcmDec (s : State) : Host.Outcome State Fault Refusal :=
  if ¬ channelsLegal s then finish (.raise .configError s)
  else if regNat s.blockAlign = 0 then finish (.raise .configError s)
  else if regNat s.len > s.inCap then finish (.raise .inputRange s)
  else finish (decodeBlocks (regNat s.blockAlign) (regNat s.len) s)

end Sys2Proof.Machine
end

