-- ==== Sys2Proof/Machine/Alaw.lean ====
section
/-! DEFINITION. The A-law command ALAW.DEC (spec/40_alaw.md). -/

namespace Sys2Proof.Machine

/-- The loop of R102, from byte i on, `n` bytes to go; it answers the output offset one past the last sample. -/
def alawLoop : (n : Nat) → (i : Nat) → State → Engine Nat
  | 0, i, s => .ok (2 * i) s
  | n + 1, i, s =>
    (memRead1 i s).andThen fun b s =>
    (memWrite2 (2 * i) (alawExpand b) s).andThen fun _ s =>
    alawLoop n (i + 1) s

/-- The number of bytes ALAW.DEC processes: `min(LEN, IN_CAP)` (R103). -/
def alawCount (s : State) : Nat := min (regNat s.len) s.inCap

/-- ALAW.DEC (R102). -/
def execAlawDec (s : State) : Host.Outcome State Fault Refusal :=
  finish (alawLoop (alawCount s) 0 s)

end Sys2Proof.Machine
end

