-- ==== Sys2Proof/Machine/Passthrough.lean ====
section
/-! DEFINITION. The pass-through command PASS (spec/42_dispatch_passthrough.md R140). -/

namespace Sys2Proof.Machine

/-- The loop of R140, from byte i on, `n` bytes to go. -/
def passLoop : (n : Nat) → (i : Nat) → State → Engine Nat
  | 0, i, s => .ok i s
  | n + 1, i, s =>
    (memRead1 i s).andThen fun b s =>
    (memWrite1 i b s).andThen fun _ s =>
    passLoop n (i + 1) s

/-- PASS (R140). -/
def execPass (s : State) : Host.Outcome State Fault Refusal :=
  if regNat s.len > s.inCap then finish (.raise .inputRange s)
  else finish (passLoop (regNat s.len) 0 s)

end Sys2Proof.Machine
end

