-- ==== Sys2Proof/Machine/Select.lean ====
section
/-! DEFINITION. The dispatch by format tag, command DEC (spec/42_dispatch_passthrough.md R141, R143). -/

namespace Sys2Proof.Machine

/-- What FMT_TAG selects (R83, R141): the source's `formatTag`. -/
inductive FormatTag where
  | linearPCM
  | aLaw
  | adpcmMS
  | other
deriving DecidableEq, Repr

/-- The tag of a FMT_TAG code (R83). -/
def formatTagOf (code : BitVec 2) : FormatTag :=
  if code = 0#2 then .linearPCM else if code = 1#2 then .aLaw else if code = 2#2 then .adpcmMS else .other

/-- The FMT_TAG code of a tag (R83). -/
def formatTagCode : FormatTag → BitVec 2
  | .linearPCM => 0#2
  | .aLaw => 1#2
  | .adpcmMS => 2#2
  | .other => 3#2

/-- DEC (R141): exactly the command that FMT_TAG selects; tags 0 and 3 are passed through, with no check (R143). -/
def execDec (s : State) : Host.Outcome State Fault Refusal :=
  match formatTagOf s.fmtTag with
  | .aLaw => execAlawDec s
  | .adpcmMS => execAdpcmDec s
  | .linearPCM => execPass s
  | .other => execPass s

end Sys2Proof.Machine
end

