-- ==== Sys2Proof/Machine/Dispatch.lean ====
section
/-! DEFINITION. The dispatch from a command to its meaning, one arm per constructor. -/

namespace Sys2Proof.Machine

def exec (i : Instr) (s : State) : Host.Outcome State Fault Refusal :=
  match i with
  | .alawDec => Sys2Proof.Machine.execAlawDec s
  | .adpcmDec => Sys2Proof.Machine.execAdpcmDec s
  | .adpcmBlk => Sys2Proof.Machine.execAdpcmBlk s
  | .adpcmNib c nibble => Sys2Proof.Machine.execAdpcmNib c nibble s
  | .pass => Sys2Proof.Machine.execPass s
  | .dec => Sys2Proof.Machine.execDec s

end Sys2Proof.Machine
end

