-- ==== Sys2Proof/Machine/Registers.lean ====
section
/-! DEFINITION. The register file as the host sees it (spec/10_state.md R22 to R38, R45): offsets, reads, writes. -/

namespace Sys2Proof.Machine

/-- The registers of the table "Register file" (R22). -/
inductive Reg where
  | cmd
  | status
  | fmtTag
  | channels
  | blockAlign
  | len
  | inOff
  | blkSize
  | outOff
  | result
  | inCap
  | outCap
  | pred (c : Chan)
  | coeff1 (c : Chan)
  | coeff2 (c : Chan)
  | delta (c : Chan)
  | s1 (c : Chan)
  | s2 (c : Chan)
deriving DecidableEq, Repr

/-- The first offset of a channel's registers (R22): 0x40 and 0x60. -/
def chanBase : Chan → Nat
  | .ch0 => 0x40
  | .ch1 => 0x60

/-- The offset of a register in REG (R22). -/
def regOffset : Reg → Nat
  | .cmd => 0x00
  | .status => 0x04
  | .fmtTag => 0x08
  | .channels => 0x0C
  | .blockAlign => 0x10
  | .len => 0x14
  | .inOff => 0x18
  | .blkSize => 0x1C
  | .outOff => 0x20
  | .result => 0x24
  | .inCap => 0x28
  | .outCap => 0x2C
  | .pred c => chanBase c
  | .coeff1 c => chanBase c + 0x04
  | .coeff2 c => chanBase c + 0x08
  | .delta c => chanBase c + 0x0C
  | .s1 c => chanBase c + 0x10
  | .s2 c => chanBase c + 0x14

/-- Every register, in the table's order. -/
def allRegs : List Reg :=
  [.cmd, .status, .fmtTag, .channels, .blockAlign, .len, .inOff, .blkSize, .outOff, .result, .inCap, .outCap,
   .pred .ch0, .coeff1 .ch0, .coeff2 .ch0, .delta .ch0, .s1 .ch0, .s2 .ch0,
   .pred .ch1, .coeff1 .ch1, .coeff2 .ch1, .delta .ch1, .s1 .ch1, .s2 .ch1]

/-- The register at an offset, if there is one. -/
def regAt (off : Nat) : Option Reg := allRegs.find? fun r => regOffset r == off

/-- What a host read of a register returns; no read has a side effect (R57). -/
def readReg (s : State) : Reg → Word
  | .cmd => 0#32
  | .status => s.statusRead
  | .fmtTag => s.fmtTag.setWidth 32
  | .channels => s.channels
  | .blockAlign => s.blockAlign
  | .len => s.len
  | .inOff => s.inOff
  | .blkSize => s.blkSize
  | .outOff => s.outOff
  | .result => widen s.result
  | .inCap => BitVec.ofNat 32 s.inCap
  | .outCap => BitVec.ofNat 32 s.outCap
  | .pred _ => 0#32
  | .coeff1 c => (s.ch c).coeff1
  | .coeff2 c => (s.ch c).coeff2
  | .delta c => (s.ch c).delta
  | .s1 c => widen (s.ch c).sample1
  | .s2 c => widen (s.ch c).sample2

/-- What a host write of `v` stores. CMD stores nothing (R23; that it starts a command is HostAccess.lean's); read-only
registers ignore it (R22, R36); CHn_PRED selects coefficients (R35); CHn_S1 and CHn_S2 keep bits 15:0 (R38). -/
def writeReg (r : Reg) (v : Word) (s : State) : State :=
  match r with
  | .cmd => s
  | .status => s.clearFlags v
  | .fmtTag => { s with fmtTag := v.setWidth 2 }
  | .channels => { s with channels := v }
  | .blockAlign => { s with blockAlign := v }
  | .len => { s with len := v }
  | .inOff => { s with inOff := v }
  | .blkSize => { s with blkSize := v }
  | .outOff => { s with outOff := v }
  | .result => s
  | .inCap => s
  | .outCap => s
  | .pred c => selectCoeff c (regNat v) s
  | .coeff1 _ => s
  | .coeff2 _ => s
  | .delta c => s.setCh c { s.ch c with delta := v }
  | .s1 c => s.setCh c { s.ch c with sample1 := v.setWidth 16 }
  | .s2 c => s.setCh c { s.ch c with sample2 := v.setWidth 16 }

end Sys2Proof.Machine
end

