-- ==== Sys2Proof/Machine/HostAccess.lean ====
section
/-! DEFINITION. One access of the host (spec/10_state.md R20, R23, R45; spec/20_memory.md R51, R52; spec/70_reset_and_hazards.md
R190), and the assembler notation of host programs (spec/30_encoding.md R75, R76). -/

namespace Sys2Proof.Machine

/-- A write of w to CMD (R23): a legal word runs its command to the end, an illegal one takes IllegalCommand (R171). -/
def runCommand (w : Word) (s : State) : Host.Outcome State Fault Refusal :=
  match decode w with
  | .ok i => exec i s
  | .error _ => .next (takeFault .illegalCommand s)

/-- A register write at an offset of the programmer's model; an offset that holds no register ignores it (R45). -/
def hostRegWrite (off : Nat) (v : Word) (s : State) : Host.Outcome State Fault Refusal :=
  match regAt off with
  | none => .next s
  | some .cmd => runCommand v s
  | some r => .next (writeReg r v s)

/-- What a register read at an offset of the programmer's model returns; an offset that holds no register reads 0 (R45). -/
def regReadValue (off : Nat) (s : State) : Word :=
  match regAt off with
  | none => 0#32
  | some r => readReg s r

/-- The platform's reset (R190): the block's state is that of R44, every unspecified value drawn anew; the host's own
program, and what it has read, are no state of the block. -/
def platformReset (s : State) : State :=
  { State.resetWith s.params (s.epoch + 1) with host := s.host, readData := s.readData }

/-- One access of the host. -/
def hostAccess (op : HostOp) (s : State) : Host.Outcome State Fault Refusal :=
  match op with
  | .regWrite width off v =>
    if regAccessOk width off then hostRegWrite off v s else .refused .regAccessOutsideModel
  | .regRead width off =>
    if regAccessOk width off then .next { s with readData := regReadValue off s }
    else .refused .regAccessOutsideModel
  | .inWrite off b => if off < s.inCap then .next (s.putIn off b) else .fault .hostOffsetOutsideIn
  | .inRead off =>
    if off < s.inCap then .next { s with readData := (s.inByte off).setWidth 32 } else .fault .hostOffsetOutsideIn
  | .outWrite off b => if off < s.outCap then .next (s.putOut off b) else .fault .hostOffsetOutsideOut
  | .outRead off =>
    if off < s.outCap then .next { s with readData := (s.outByte off).setWidth 32 } else .fault .hostOffsetOutsideOut
  | .reset => .next (platformReset s)

/-- The host's next access; with none pending the block is idle and all state persists (R20, R184). -/
def hostTurn (s : State) : Host.Outcome State Fault Refusal :=
  match s.host with
  | [] => .next s
  | op :: rest => hostAccess op { s with host := rest }

-- The assembler notation of host programs.

/-- `WR <reg>, <value>` (R75). -/
def asmWr (r : Reg) (v : Word) : HostOp := .regWrite .word (regOffset r) v

/-- `RD <reg>` (R75). -/
def asmRd (r : Reg) : HostOp := .regRead .word (regOffset r)

/-- `CMD <mnemonic>` (R75). -/
def asmCmd (i : Instr) : HostOp := asmWr .cmd (encode i)

/-- `LDIN <off>: <byte> ...`: the bytes at ascending offsets (R75). -/
def asmLdIn : (off : Nat) → List Byte → List HostOp
  | _, [] => []
  | off, b :: bs => .inWrite off b :: asmLdIn (off + 1) bs

/-- `RDOUT <off>, <n>` (R75). -/
def asmRdOut : (off n : Nat) → List HostOp
  | _, 0 => []
  | off, n + 1 => .outRead off :: asmRdOut (off + 1) n

/-- `SELPRED <c>, <i>` (R76). -/
def asmSelPred (c : Chan) (i : Word) : List HostOp := [asmWr (.pred c) i]

/-- `SETCH <c>, <i>, <delta>, <s1>, <s2>` (R76). -/
def asmSetCh (c : Chan) (i delta s1 s2 : Word) : List HostOp :=
  [asmWr (.pred c) i, asmWr (.delta c) delta, asmWr (.s1 c) s1, asmWr (.s2 c) s2]

/-- `CLRSTAT` (R76). -/
def asmClrStat : List HostOp := [asmWr .status 0x0000070F#32]

/-- `SETFMT <tag>, <channels>, <blockAlign>` (R76). -/
def asmSetFmt (tag channels blockAlign : Word) : List HostOp :=
  [asmWr .fmtTag tag, asmWr .channels channels, asmWr .blockAlign blockAlign]

end Sys2Proof.Machine
end

