-- ==== Sys2Proof/Machine/Step.lean ====
section
/-! DEFINITION. One step of the machine: the host's next access, a whole command when it is a write of CMD (spec/10_state.md R20, R41). -/

namespace Sys2Proof.Machine

/-- One step. The block fetches no instructions (R41, R62): a command word is the data of a CMD write. -/
def step (s : State) : Host.Outcome State Fault Refusal := hostTurn s

/-- `s` with a write of the given word to CMD as the host's next access: the word lies where `step` takes its next command
from, and nothing else changes (log entry 1). -/
def State.withFetchWord (s : State) (nbits w : Nat) : State :=
  { s with host := .regWrite .word (regOffset .cmd) (BitVec.ofNat 32 (w % 2 ^ nbits)) :: s.host }

end Sys2Proof.Machine
end

