-- ==== Sys2Proof/Machine/HostFunctions.lean ====
section
/-! DEFINITION. The two host-side pure functions (spec/43_host_functions.md). They are outside the block: no step calls them. -/

namespace Sys2Proof.Machine

/-- FormatDescriptor (R151). The numeric fields are non-negative integers; the extra-codec-data blob is kept opaque. -/
structure FormatDescriptor where
  formatTag      : FormatTag
  channelCount   : Nat
  bitsPerSample  : Nat
  samplesPerSec  : Nat
  blockAlign     : Nat
  avgBytesPerSec : Nat
  extraData      : Option (List Byte)
deriving DecidableEq, Repr

/-- `channelCount` is 1 or 2 (R151). -/
def FormatDescriptor.wellFormed (fmt : FormatDescriptor) : Bool := fmt.channelCount == 1 || fmt.channelCount == 2

/-- `translateForDevice` (R152). -/
def translateForDevice (fmt : FormatDescriptor) : FormatDescriptor :=
  match fmt.formatTag with
  | .linearPCM => fmt
  | tag =>
    { formatTag      := tag
      channelCount   := fmt.channelCount
      bitsPerSample  := 16
      samplesPerSec  := fmt.samplesPerSec
      blockAlign     := fmt.channelCount * 2
      avgBytesPerSec := fmt.channelCount * 2 * fmt.samplesPerSec
      extraData      := none }

/-- What `estimateOutputSize` answers: a size, the error SizeOverflow (R153), or no value at all, which a model refuses
(a zero divisor, R154, R155; a negative length, U17). -/
inductive Estimate where
  | size (n : Int)
  | sizeOverflow
  | noValue
deriving DecidableEq, Repr

/-- The ratio `floor((channelCount * 16) / bitsPerSample)` (R154). -/
def expansionRatio (fmt : FormatDescriptor) : Nat := (fmt.channelCount * 16) / fmt.bitsPerSample

/-- The size after the length check (R154 to R156). -/
def estimateSize (compressedLength : Nat) (fmt : FormatDescriptor) : Estimate :=
  match fmt.formatTag with
  | .aLaw =>
    if fmt.bitsPerSample = 0 then .noValue
    else .size ((compressedLength * expansionRatio fmt : Nat) : Int)
  | .adpcmMS =>
    if fmt.bitsPerSample = 0 ∨ fmt.blockAlign = 0 then .noValue
    else .size (((compressedLength * expansionRatio fmt : Nat) : Int)
      - ((compressedLength / fmt.blockAlign * 7 * fmt.channelCount : Nat) : Int))
  | .linearPCM => .size (compressedLength : Int)
  | .other => .size (compressedLength : Int)

/-- `estimateOutputSize` (R153): SizeOverflow above 2147483647, before anything else. -/
def estimateOutputSize (compressedLength : Int) (fmt : FormatDescriptor) : Estimate :=
  if compressedLength > 2147483647 then .sizeOverflow
  else if compressedLength < 0 then .noValue
  else estimateSize compressedLength.toNat fmt

end Sys2Proof.Machine
end

