-- ==== Sys2Proof/Safety.lean ====
section
/-! DEFINITION. The terms the claims use: the machine invariant, what a space holds, what stays unchanged, and the
decoders as pure functions of the input bytes (no state, no cursor), for the results to be stated against. -/

namespace Sys2Proof.Machine

/-- The machine invariant: STATUS holds no reserved bit (R24), both memories are in canonical form, and neither lists an
offset its space does not have (R51, R52). -/
def State.Inv (s : State) : Prop :=
  s.status &&& ~~~statusBits = 0#32 ∧
  s.inMem.wf = true ∧ s.outMem.wf = true ∧
  s.inMem.below s.inCap = true ∧ s.outMem.below s.outCap = true

/-- The pair (coeff1, coeff2) is one of the seven pairs of the coefficient tables (R35, R110). -/
def Predictor.tablePair (p : Predictor) : Prop :=
  ∃ i : Fin 7, p.coeff1 = toReg adaptCoeff1[i] ∧ p.coeff2 = toReg adaptCoeff2[i]

/-- OUT holds the samples vs from offset off on, each two bytes little-endian, with no gap (R53, R78). -/
def OutHolds (t : State) (off : Nat) (vs : List Half) : Prop :=
  ∀ i, (h : i < vs.length) →
    t.outByte (off + 2 * i) = lowByte vs[i] ∧ t.outByte (off + 2 * i + 1) = highByte vs[i]

/-- Every byte of OUT outside offsets lo to hi - 1 reads as before (R52). -/
def OutSameOutside (s t : State) (lo hi : Nat) : Prop :=
  ∀ a, a < lo ∨ hi ≤ a → t.outByte a = s.outByte a

/-- `status` with the flag f set if the condition holds. -/
def flagIf (cond : Bool) (f : Flag) : Word := if cond then f.mask else 0#32

/-- Everything no command may change: the parameters, the registers the host alone writes, IN, and the host's own side
(R21, R29, R30, R51). -/
def SameHostSide (s t : State) : Prop :=
  t.params = s.params ∧ t.fmtTag = s.fmtTag ∧ t.channels = s.channels ∧ t.blockAlign = s.blockAlign ∧
  t.len = s.len ∧ t.inOff = s.inOff ∧ t.blkSize = s.blkSize ∧ t.inMem = s.inMem ∧ t.epoch = s.epoch ∧
  t.host = s.host ∧ t.readData = s.readData

/-- Two states on which a decode command must agree (R127): they may differ in STATUS, OUT_OFF, RESULT, the predictor
registers and the host's own side only. -/
def SameInputs (s t : State) : Prop :=
  t.params = s.params ∧ t.fmtTag = s.fmtTag ∧ t.channels = s.channels ∧ t.blockAlign = s.blockAlign ∧
  t.len = s.len ∧ t.inOff = s.inOff ∧ t.blkSize = s.blkSize ∧ t.inMem = s.inMem ∧ t.outMem = s.outMem ∧
  t.epoch = s.epoch

/-- The number of channels as a number (R116 step 1). -/
def channelCount (stereo : Bool) : Nat := if stereo then 2 else 1

/-- The 16-bit field at byte j of a block whose bytes are `rd 0`, `rd 1`, ... (R53, R113). -/
def fieldAt (rd : Nat → Byte) (j : Nat) : Half := halfOfBytes (rd j) (rd (j + 1))

/-- The predictor register set a block header loads for channel number c (0 or 1), by the block offsets of R79 and R80. -/
def headerSet (rd : Nat → Byte) (stereo : Bool) (c : Nat) : Predictor :=
  let nch := channelCount stereo
  { coeff1  := toReg adaptCoeff1[predIndex (rd c).toNat]
    coeff2  := toReg adaptCoeff2[predIndex (rd c).toNat]
    delta   := widen (fieldAt rd (nch + 2 * c))
    sample1 := fieldAt rd (3 * nch + 2 * c)
    sample2 := fieldAt rd (5 * nch + 2 * c) }

/-- Whether a header index byte above 6 is clamped in the block (R112). -/
def headerClamps (rd : Nat → Byte) (stereo : Bool) : Bool :=
  decide ((rd 0).toNat > 6) || (stereo && decide ((rd 1).toNat > 6))

/-- The codes of the data bytes, with the channel each is expanded through (R81, R118). -/
def dataCodes (rd : Nat → Byte) (stereo : Bool) : (n : Nat) → (j : Nat) → List (Chan × Nibble)
  | 0, _ => []
  | n + 1, j =>
    (.ch0, highNibble (rd j)) :: (if stereo then .ch1 else .ch0, lowNibble (rd j)) :: dataCodes rd stereo n (j + 1)

/-- The samples that a list of codes gives from the predictor sets p (channel 0) and q (channel 1). -/
def playSamples : List (Chan × Nibble) → Predictor → Predictor → List Half
  | [], _, _ => []
  | (.ch0, n) :: cs, p, q => (expandNibble p n).1 :: playSamples cs (expandNibble p n).2 q
  | (.ch1, n) :: cs, p, q => (expandNibble q n).1 :: playSamples cs p (expandNibble q n).2

/-- The predictor sets that a list of codes leaves. -/
def playSets : List (Chan × Nibble) → Predictor → Predictor → Predictor × Predictor
  | [], p, q => (p, q)
  | (.ch0, n) :: cs, p, q => playSets cs (expandNibble p n).2 q
  | (.ch1, n) :: cs, p, q => playSets cs p (expandNibble q n).2

/-- The seed samples in output order (R117). -/
def seedSamples (rd : Nat → Byte) (stereo : Bool) : List Half :=
  let p := headerSet rd stereo 0
  let q := headerSet rd stereo 1
  if stereo then [p.sample1, q.sample1, p.sample2, q.sample2] else [p.sample1, p.sample2]

/-- The codes of a block of `bs` bytes, after its header. -/
def blockCodes (rd : Nat → Byte) (stereo : Bool) (bs : Nat) : List (Chan × Nibble) :=
  dataCodes rd stereo (bs - headerSize stereo) (headerSize stereo)

/-- All samples of a block of `bs` bytes, in output order (R117, R118), as a function of its bytes alone. -/
def blockSamples (rd : Nat → Byte) (stereo : Bool) (bs : Nat) : List Half :=
  seedSamples rd stereo ++
    playSamples (blockCodes rd stereo bs) (headerSet rd stereo 0) (headerSet rd stereo 1)

/-- The predictor sets after the first `k` samples of a block, channel 1's being `other` (untouched) in a mono block (R174). -/
def blockSets (rd : Nat → Byte) (stereo : Bool) (bs k : Nat) (other : Predictor) : Predictor × Predictor :=
  playSets ((blockCodes rd stereo bs).take (k - 2 * channelCount stereo))
    (headerSet rd stereo 0) (if stereo then headerSet rd stereo 1 else other)

/-- The bytes one block of `bs` bytes writes: `4 * bs - 24 * nch` (R119). -/
def blockOutput (stereo : Bool) (bs : Nat) : Nat := 4 * bs - 24 * channelCount stereo

/-- The bytes of IN from an offset on, as a block's bytes. -/
def State.blockAt (s : State) (off : Nat) : Nat → Byte := fun j => s.inByte (off + j)

/-- The samples ALAW.DEC produces (R102). -/
def alawSamples (s : State) : List Half := (List.range (alawCount s)).map fun i => alawExpand (s.inByte i)

/-- What a completed ALAW.DEC leaves (R102, R104): the samples in OUT, the byte count in OUT_OFF, all else as before. -/
def AlawDone (s t : State) : Prop :=
  OutHolds t 0 (alawSamples s) ∧ OutSameOutside s t 0 (2 * alawCount s) ∧
  t = { s with outMem := t.outMem, outOff := BitVec.ofNat 32 (2 * alawCount s) }

/-- What a completed PASS leaves (R140). -/
def PassDone (s t : State) : Prop :=
  (∀ a, a < regNat s.len → t.outByte a = s.inByte a) ∧ OutSameOutside s t 0 (regNat s.len) ∧
  t = { s with outMem := t.outMem, outOff := s.len }

/-- The size of the block that ADPCM.BLK decodes, after the cut (R116 step 2). -/
def State.blkBytes (s : State) : Nat := clampBlock (regNat s.blockAlign) (regNat s.blkSize)

/-- The number of whole blocks of ADPCM.DEC (R82). -/
def State.blockCount (s : State) : Nat := regNat s.len / regNat s.blockAlign

/-- What a completed ADPCM.DEC leaves when its blocks are long enough for a header (R122, R123): block k's samples from
offset k * (4 * B - 24 * nch) on, the sets of the last block, the informational flags. -/
def AdpcmDecDone (s t : State) : Prop :=
  let B := regNat s.blockAlign
  let nb := s.blockCount
  let st := isStereo s
  (∀ k, k < nb → OutHolds t (k * blockOutput st B) (blockSamples (s.blockAt (k * B)) st B)) ∧
  OutSameOutside s t 0 (nb * blockOutput st B) ∧
  t = { s with
    outMem := t.outMem
    outOff := BitVec.ofNat 32 (nb * blockOutput st B)
    status := s.status ||| flagIf (decide (regNat s.len % B ≠ 0)) .traildrop
      ||| flagIf ((List.range nb).any fun k => headerClamps (s.blockAt (k * B)) st) .predclamp
    ch0 := if nb = 0 then s.ch0
      else (blockSets (s.blockAt ((nb - 1) * B)) st B (2 * B) s.ch1).1
    ch1 := if nb = 0 then s.ch1
      else (blockSets (s.blockAt ((nb - 1) * B)) st B (2 * B) s.ch1).2 }

/-- A host that walks `n` equal blocks of B bytes from block k on with ADPCM.BLK, writing IN_OFF and BLK_SIZE before each
and letting OUT_OFF carry over (R123); it stops where a command stops. -/
def blkWalk (B : Nat) : (n : Nat) → (k : Nat) → State → Host.Outcome State Fault Refusal
  | 0, _, s => .next s
  | n + 1, k, s =>
    match exec .adpcmBlk { s with inOff := BitVec.ofNat 32 (k * B), blkSize := BitVec.ofNat 32 B } with
    | .next t => blkWalk B n (k + 1) t
    | .fault r => .fault r
    | .refused r => .refused r

/-- What the host reads back from a register it may write plainly, after writing v: the word itself; FMT_TAG keeps bits 1:0
(R25); CHn_S1 and CHn_S2 keep bits 15:0 and read sign-extended (R38). The other registers have rules of their own. -/
def readBack (v : Word) : Reg → Option Word
  | .fmtTag => some (v &&& 3#32)
  | .channels => some v
  | .blockAlign => some v
  | .len => some v
  | .inOff => some v
  | .blkSize => some v
  | .outOff => some v
  | .delta _ => some v
  | .s1 _ => some ((v.setWidth 16).signExtend 32)
  | .s2 _ => some ((v.setWidth 16).signExtend 32)
  | .cmd => none
  | .status => none
  | .result => none
  | .inCap => none
  | .outCap => none
  | .pred _ => none
  | .coeff1 _ => none
  | .coeff2 _ => none

/-- Whether a command decodes a buffer from IN into OUT from offset 0: all but ADPCM.BLK and ADPCM.NIB (R31). -/
def wholeBuffer : Instr → Bool
  | .alawDec => true
  | .adpcmDec => true
  | .adpcmBlk => false
  | .adpcmNib _ _ => false
  | .pass => true
  | .dec => true

/-- All samples of a sequence of `nb` blocks of B bytes, from IN offset 0 on (R123). -/
def streamSamples (s : State) (B nb : Nat) : List Half :=
  (List.range nb).flatMap fun k => blockSamples (s.blockAt (k * B)) (isStereo s) B

/-- The conditions under which ADPCM.DEC passes its checks and its blocks hold a header (R122, R176). -/
def adpcmDecReady (s : State) : Prop :=
  channelsLegal s = true ∧ regNat s.len ≤ s.inCap ∧ headerSize (isStereo s) ≤ regNat s.blockAlign

/-- The conditions under which ADPCM.BLK decodes a block: legal channel count, a header's worth of bytes, inside IN (R121). -/
def adpcmBlkReady (s : State) : Prop :=
  channelsLegal s = true ∧ headerSize (isStereo s) ≤ s.blkBytes ∧ regNat s.inOff + s.blkBytes ≤ s.inCap

/-- The state a host sets up from an input descriptor and `n` compressed bytes before it writes CMD DEC (R159).
DESIGN CHOICE, log entry 20 (unsafe): a `blockAlign`, channel count or `n` of 2^32 or more, which the spec does not say how to
write to a 32-bit register, is cut to its low 32 bits. -/
def hostSetup (s : State) (fmt : FormatDescriptor) (n : Nat) : State :=
  { s with
    fmtTag     := formatTagCode fmt.formatTag
    channels   := BitVec.ofNat 32 fmt.channelCount
    blockAlign := BitVec.ofNat 32 fmt.blockAlign
    len        := BitVec.ofNat 32 n }

end Sys2Proof.Machine
end

