-- ==== Sys2Proof/Certificates/Slice0/Obligations.lean ====
section
/-! DEFINITION. The statements about ADEC, from the numbered rules of spec/. Nothing is proved here. -/

open Sys2Proof Sys2Proof.Machine

-- Encoding, decoding, and what a step runs.

/-- Decode and encode agree on every command, and no two words decode to one command (R70 to R74). -/
def Obligations.DecodeEncodeAgree : Prop :=
  (∀ i : Instr, decode (encode i) = .ok i) ∧
  (∀ (w : Word) (i : Instr), decode w = .ok i → encode i = w)

/-- R71: the opcode map, the exact words, and that they are 37 in all. -/
def Obligations.OpcodeMapIsExact : Prop :=
  (∀ w : Word, decode w = .ok .alawDec ↔ w = 0x00000001#32) ∧
  (∀ w : Word, decode w = .ok .adpcmDec ↔ w = 0x00000002#32) ∧
  (∀ w : Word, decode w = .ok .adpcmBlk ↔ w = 0x00000003#32) ∧
  (∀ (w : Word) (c : Chan) (n : Nibble), decode w = .ok (.adpcmNib c n) ↔
    w = BitVec.ofNat 32 (0x00000004 + 16 * n.toNat + 256 * (if c = .ch1 then 1 else 0))) ∧
  (∀ w : Word, decode w = .ok .pass ↔ w = 0x00000005#32) ∧
  (∀ w : Word, decode w = .ok .dec ↔ w = 0x00000006#32) ∧
  (∃ legal : List Word, legal.Nodup ∧ legal.length = 37 ∧ ∀ w, w ∈ legal ↔ ∃ i, decode w = .ok i)

/-- A few words of R71, written out from the format of R70. -/
def Obligations.SampleWordsDecode : Prop :=
  decode 0x00000001#32 = .ok .alawDec ∧ decode 0x00000003#32 = .ok .adpcmBlk ∧
  decode 0x000001F4#32 = .ok (.adpcmNib .ch1 15#4) ∧ decode 0x00000006#32 = .ok .dec

/-- R73: which words are illegal, and that writing one to CMD raises IllegalCommand, which by R171 sets ILLCMD (bit 0) and
changes nothing else. -/
def Obligations.IllegalWordRaisesIllegalCommand : Prop :=
  (∀ w : Word, (∃ i, decode w = .ok i) ↔
    ¬ (w.toNat / 512 ≠ 0 ∨ (w.toNat % 16 = 0 ∨ 7 ≤ w.toNat % 16) ∨ (w.toNat % 16 ≠ 4 ∧ w.toNat / 16 % 32 ≠ 0))) ∧
  (∀ (s : State) (w : Word) (rest : List HostOp),
    s.host = .regWrite .word 0x00 w :: rest → (∀ i, decode w ≠ .ok i) →
    step s = .next { s with host := rest, status := s.status ||| 0x00000001#32 }) ∧
  (∀ i, decode 0x00000000#32 ≠ .ok i) ∧ (∀ i, decode 0xFFFFFFFF#32 ≠ .ok i)

/-- A step whose host access writes a legal word to CMD is that command's meaning on the state with the access consumed; the
word `withFetchWord` places is the next one run; with no access pending the block is idle. -/
def Obligations.StepRunsDecodedCommand : Prop :=
  (∀ (s : State) (w : Word) (i : Instr) (rest : List HostOp),
    s.host = .regWrite .word 0x00 w :: rest → decode w = .ok i → step s = exec i { s with host := rest }) ∧
  (∀ (s : State) (w : Word) (i : Instr), decode w = .ok i → step (s.withFetchWord 32 w.toNat) = exec i s) ∧
  (∀ s : State, s.host = [] → step s = .next s)

/-- Every command answers a next state in every state: no command refuses or stops, so no engine read leaves IN (R54, R194). -/
def Obligations.EveryCommandAnswersANextState : Prop :=
  ∀ (i : Instr) (s : State), ∃ t, exec i s = .next t

/-- A step stops exactly on a host access outside the programmer's model: a register access that is no aligned word at 0x00
to 0x7F is refused (R45), a byte access outside IN or OUT faults (log entry 8, the model's choice). -/
def Obligations.StepStopsOnlyOutsideTheModel : Prop :=
  (∀ s : State, (∃ t, step s = .next t) ↔ ∀ op rest, s.host = op :: rest → op.wellFormed s.params = true) ∧
  (∀ (s : State) (width : AccessWidth) (off : Nat) (v : Word) (rest : List HostOp),
    (width ≠ .word ∨ off % 4 ≠ 0 ∨ 0x7F < off) →
    (s.host = .regWrite width off v :: rest → step s = .refused .regAccessOutsideModel) ∧
    (s.host = .regRead width off :: rest → step s = .refused .regAccessOutsideModel)) ∧
  (∀ (s : State) (off : Nat) (b : Byte) (rest : List HostOp),
    (s.inCap ≤ off → s.host = .inWrite off b :: rest → step s = .fault .hostOffsetOutsideIn) ∧
    (s.inCap ≤ off → s.host = .inRead off :: rest → step s = .fault .hostOffsetOutsideIn) ∧
    (s.outCap ≤ off → s.host = .outWrite off b :: rest → step s = .fault .hostOffsetOutsideOut) ∧
    (s.outCap ≤ off → s.host = .outRead off :: rest → step s = .fault .hostOffsetOutsideOut))

-- The access primitives.

/-- R55: the bound check of `MemWrite`, the bytes it writes, low byte first, and that no other byte changes. -/
def Obligations.MemWriteWholeOrNotAtAll : Prop :=
  (∀ (s : State) (off : Nat) (v : Int),
    (s.outCap < off + 1 → memWrite1 off (BitVec.ofInt 8 v) s = .raise (.outputOverflow off) s) ∧
    (off + 1 ≤ s.outCap → ∃ t, memWrite1 off (BitVec.ofInt 8 v) s = .ok () t ∧
      (t.outByte off).toNat = (v % 256).toNat ∧
      (∀ a, a ≠ off → t.outByte a = s.outByte a) ∧ t = { s with outMem := t.outMem })) ∧
  (∀ (s : State) (off : Nat) (v : Int),
    (s.outCap < off + 2 → memWrite2 off (sext16 v) s = .raise (.outputOverflow off) s) ∧
    (off + 2 ≤ s.outCap → ∃ t, memWrite2 off (sext16 v) s = .ok () t ∧
      (t.outByte off).toNat = (v % 65536).toNat % 256 ∧ (t.outByte (off + 1)).toNat = (v % 65536).toNat / 256 ∧
      (∀ a, a ≠ off → a ≠ off + 1 → t.outByte a = s.outByte a) ∧ t = { s with outMem := t.outMem }))

/-- R54: `MemRead` returns the byte, or the two bytes with the lower offset in bits 7:0; it has no side effect; outside IN it
refuses. -/
def Obligations.MemReadLittleEndian : Prop :=
  ∀ (s : State) (off : Nat),
    (off + 1 ≤ s.inCap → memRead1 off s = .ok (s.inByte off) s) ∧
    (off + 2 ≤ s.inCap → ∃ v, memRead2 off s = .ok v s ∧
      v.toNat = (s.inByte off).toNat + 256 * (s.inByte (off + 1)).toNat) ∧
    (s.inCap < off + 1 → memRead1 off s = .refuse .memReadOutsideIn) ∧
    (s.inCap < off + 2 → memRead2 off s = .refuse .memReadOutsideIn)

-- The A-law decoder.

/-- `ALawExpand` never wraps and has the closed form of R101 (d): e = 0 gives 16m + 8, e >= 1 gives (16m + 264) << (e - 1),
negative when bit 7 of y is set; it is never 0, odd under b XOR 0x80 (R101 (b), (c)) and injective (R101 (e)). -/
def Obligations.AlawExpandClosedForm : Prop :=
  (∀ b : Byte,
    let y := (b ^^^ 0xD5#8).toNat
    let m := y % 16
    let e := y / 16 % 8
    let magnitude : Int := if e = 0 then 16 * m + 8 else ((16 * m + 264) * 2 ^ (e - 1) : Nat)
    (alawExpand b).toInt = if y ≥ 128 then - magnitude else magnitude) ∧
  (∀ b : Byte, (alawExpand (b ^^^ 0x80#8)).toInt = - (alawExpand b).toInt ∧ (alawExpand b).toInt ≠ 0) ∧
  (∀ b c : Byte, alawExpand b = alawExpand c → b = c)

/-- ALAW.DEC completes when its 2 * min(LEN, IN_CAP) bytes fit: the samples are in OUT from offset 0, every other byte of OUT
is as before, OUT_OFF is the byte count, and nothing else changes (R102 to R106). -/
def Obligations.AlawDecCompletes : Prop :=
  ∀ s : State, 2 * alawCount s ≤ s.outCap → ∃ t, exec .alawDec s = .next t ∧ AlawDone s t

/-- ALAW.DEC whose output does not fit writes the samples that do, and ends with OUTOVF (bit 3) and OUT_OFF at the first
sample that did not fit; nothing else changes (R102, R174). -/
def Obligations.AlawDecOverflows : Prop :=
  ∀ s : State, s.outCap < 2 * alawCount s → ∃ t, exec .alawDec s = .next t ∧
    OutHolds t 0 ((alawSamples s).take (s.outCap / 2)) ∧ OutSameOutside s t 0 (2 * (s.outCap / 2)) ∧
    t = { s with
      outMem := t.outMem
      outOff := BitVec.ofNat 32 (2 * (s.outCap / 2))
      status := s.status ||| 0x00000008#32 }

-- The nibble expansion and ADPCM.NIB.

/-- ADPCM.NIB in full (R114, R120), over the integers: `Int.bmod _ (2^32)` is the wrap of R111 (a), `Int.tdiv` truncates
toward zero, `/ 256` of the integers rounds toward minus infinity. RESULT and ch[c] alone change. -/
def Obligations.AdpcmNibResult : Prop :=
  ∀ (c : Chan) (n : Nibble) (s : State),
    let s1 := (s.ch c).sample1.toInt
    let s2 := (s.ch c).sample2.toInt
    let k1 := (s.ch c).coeff1.toInt
    let k2 := (s.ch c).coeff2.toInt
    let d := (s.ch c).delta.toInt
    let acc := Int.bmod (Int.bmod (s1 * k1) (2 ^ 32) + Int.bmod (s2 * k2) (2 ^ 32)) (2 ^ 32)
    let signed : Int := if n.toNat < 8 then n.toNat else (n.toNat : Int) - 16
    let prediction := Int.bmod (Int.tdiv acc 256 + Int.bmod (signed * d) (2 ^ 32)) (2 ^ 32)
    let v := BitVec.ofInt 16 prediction
    let T := [230, 230, 230, 230, 307, 409, 512, 614, 768, 614, 512, 409, 307, 230, 230, 230].getD n.toNat (0 : Int)
    let nd := Int.bmod (T * d) (2 ^ 32) / 256
    exec (.adpcmNib c n) s = .next (({ s with result := v }).setCh c
      { coeff1 := (s.ch c).coeff1
        coeff2 := (s.ch c).coeff2
        delta := BitVec.ofInt 32 (if nd < 16 then 16 else nd)
        sample1 := v
        sample2 := (s.ch c).sample1 })

/-- R115 (c), (e), (h): after every nibble expansion, on whatever predictor set, the step size is 16 to 8388607 and the
coefficients are as before; ADPCM.NIB leaves such a set in its channel, and the other channel untouched. -/
def Obligations.NibbleDeltaStaysInRange : Prop :=
  (∀ (p : Predictor) (n : Nibble),
    16 ≤ (expandNibble p n).2.delta.toInt ∧ (expandNibble p n).2.delta.toInt ≤ 8388607 ∧
    (expandNibble p n).2.coeff1 = p.coeff1 ∧ (expandNibble p n).2.coeff2 = p.coeff2) ∧
  (∀ (c : Chan) (n : Nibble) (s t : State), exec (.adpcmNib c n) s = .next t →
    16 ≤ (t.ch c).delta.toInt ∧ (t.ch c).delta.toInt ≤ 8388607 ∧
    (t.ch c).coeff1 = (s.ch c).coeff1 ∧ (t.ch c).coeff2 = (s.ch c).coeff2 ∧
    (∀ d, d ≠ c → t.ch d = s.ch d))

/-- R115 (a), (b), (d): with a table pair and 0 <= delta <= 2796202 no wrap to 32 bits changes anything. -/
def Obligations.NibbleWidthInvisibleInDomain : Prop :=
  ∀ (p : Predictor) (n : Nibble), p.tablePair → 0 ≤ p.delta.toInt → p.delta.toInt ≤ 2796202 →
    let acc := p.sample1.toInt * p.coeff1.toInt + p.sample2.toInt * p.coeff2.toInt
    let signed : Int := if n.toNat < 8 then n.toNat else (n.toNat : Int) - 16
    acc.natAbs ≤ 25165824 ∧
    (expandNibble p n).1 = BitVec.ofInt 16 (Int.tdiv acc 256 + signed * p.delta.toInt) ∧
    (expandNibble p n).2.delta.toInt = max 16 (adaptationTable[n.toFin] * p.delta.toInt / 256)

/-- R115 (f): the new sample depends on delta only modulo 2^16. -/
def Obligations.NibbleSampleSeesDeltaModulo : Prop :=
  ∀ (p : Predictor) (d : Word) (n : Nibble), p.delta.toNat % 65536 = d.toNat % 65536 →
    (expandNibble { p with delta := d } n).1 = (expandNibble p n).1

/-- The source's floor test (R126, R115 (g)): a mono block with predictor index 0, delta 16 and all-zero data bytes, decoded by
ADPCM.BLK, repeats its first seed in every later sample and leaves delta at 16. -/
def Obligations.FloorHoldsForAWholeBlock : Prop :=
  ∀ s : State, adpcmBlkReady s → regNat s.channels = 1 →
    regNat s.outOff + blockOutput false s.blkBytes ≤ s.outCap →
    s.inByte (regNat s.inOff) = 0#8 → fieldAt (s.blockAt (regNat s.inOff)) 1 = 16#16 →
    (∀ j, 7 ≤ j → j < s.blkBytes → s.inByte (regNat s.inOff + j) = 0#8) →
    ∃ t, exec .adpcmBlk s = .next t ∧ t.ch0.delta = 16#32 ∧
      OutHolds t (regNat s.outOff)
        ([fieldAt (s.blockAt (regNat s.inOff)) 3, fieldAt (s.blockAt (regNat s.inOff)) 5] ++
          List.replicate (2 * (s.blkBytes - 7)) (fieldAt (s.blockAt (regNat s.inOff)) 3))

-- ADPCM.BLK.

/-- ADPCM.BLK completes when the block is neither empty nor short, lies inside IN and its output fits (R116 to R121): the samples
of the block, a function of its bytes alone, from OUT_OFF on; OUT_OFF advanced by 4 * bs - 24 * nch; the predictor sets after
the last sample (channel 1's untouched in mono); PREDCLAMP if an index byte was above 6; nothing else. -/
def Obligations.AdpcmBlkCompletes : Prop :=
  ∀ s : State, adpcmBlkReady s →
    regNat s.outOff + blockOutput (isStereo s) s.blkBytes ≤ s.outCap →
    let rd := s.blockAt (regNat s.inOff)
    let st := isStereo s
    let bs := s.blkBytes
    ∃ t, exec .adpcmBlk s = .next t ∧
      OutHolds t (regNat s.outOff) (blockSamples rd st bs) ∧
      OutSameOutside s t (regNat s.outOff) (regNat s.outOff + blockOutput st bs) ∧
      t = { s with
        outMem := t.outMem
        outOff := BitVec.ofNat 32 (regNat s.outOff + blockOutput st bs)
        status := s.status ||| flagIf (headerClamps rd st) .predclamp
        ch0 := (blockSets rd st bs (2 * bs) s.ch1).1
        ch1 := (blockSets rd st bs (2 * bs) s.ch1).2 }

/-- ADPCM.BLK on an empty block, or one shorter than its header after the cut, sets BLKSKIP (bit 9) and changes nothing else,
wherever IN_OFF lies (R116, R121, R176). -/
def Obligations.AdpcmBlkSkipsShortBlocks : Prop :=
  ∀ s : State, channelsLegal s = true → s.blkBytes < headerSize (isStereo s) →
    exec .adpcmBlk s = .next { s with status := s.status ||| 0x00000200#32 }

/-- ADPCM.BLK whose output does not fit (R174): the samples that fit are written, OUT_OFF holds the offset of the one that does
not, the predictor sets are those after the last sample written, OUTOVF is set; nothing else. -/
def Obligations.AdpcmBlkOverflows : Prop :=
  ∀ s : State, adpcmBlkReady s →
    s.outCap < regNat s.outOff + blockOutput (isStereo s) s.blkBytes →
    let rd := s.blockAt (regNat s.inOff)
    let st := isStereo s
    let bs := s.blkBytes
    let k := (s.outCap - regNat s.outOff) / 2
    ∃ t, exec .adpcmBlk s = .next t ∧
      OutHolds t (regNat s.outOff) ((blockSamples rd st bs).take k) ∧
      OutSameOutside s t (regNat s.outOff) (regNat s.outOff + 2 * k) ∧
      t = { s with
        outMem := t.outMem
        outOff := BitVec.ofNat 32 (regNat s.outOff + 2 * k)
        status := s.status ||| flagIf (headerClamps rd st) .predclamp ||| 0x00000008#32
        ch0 := (blockSets rd st bs k s.ch1).1
        ch1 := (blockSets rd st bs k s.ch1).2 }

-- ADPCM.DEC.

/-- ADPCM.DEC completes when its checks pass, its blocks hold a header and its output fits (R122, R123): block k's samples
from offset k * (4 * B - 24 * nch), OUT_OFF the byte count, TRAILDROP for trailing bytes, PREDCLAMP for a clamped index. -/
def Obligations.AdpcmDecCompletes : Prop :=
  ∀ s : State, adpcmDecReady s →
    s.blockCount * blockOutput (isStereo s) (regNat s.blockAlign) ≤ s.outCap →
    ∃ t, exec .adpcmDec s = .next t ∧ AdpcmDecDone s t

/-- ADPCM.DEC whose blocks are shorter than a header skips them all: OUT_OFF 0, BLKSKIP if there is a block, TRAILDROP if there
are trailing bytes, nothing else (R122). -/
def Obligations.AdpcmDecSkipsShortBlocks : Prop :=
  ∀ s : State, channelsLegal s = true → regNat s.blockAlign ≠ 0 → regNat s.len ≤ s.inCap →
    regNat s.blockAlign < headerSize (isStereo s) →
    exec .adpcmDec s = .next { s with
      outOff := 0#32
      status := s.status ||| flagIf (decide (regNat s.len % regNat s.blockAlign ≠ 0)) .traildrop
        ||| flagIf (decide (s.blockCount ≠ 0)) .blkskip }

/-- ADPCM.DEC whose output does not fit stops at the first sample that does not (R122, R174): with K samples fitting, the first
K samples of the stream are in OUT, OUT_OFF = 2K, and the sets are those of the block reached, after its samples written. -/
def Obligations.AdpcmDecOverflows : Prop :=
  ∀ s : State, adpcmDecReady s →
    s.outCap < s.blockCount * blockOutput (isStereo s) (regNat s.blockAlign) →
    let B := regNat s.blockAlign
    let st := isStereo s
    let K := s.outCap / 2
    let j := K / (blockOutput st B / 2)
    let rd := s.blockAt (j * B)
    let sets := blockSets rd st B (K % (blockOutput st B / 2)) s.ch1
    ∃ t, exec .adpcmDec s = .next t ∧
      OutHolds t 0 ((streamSamples s B s.blockCount).take K) ∧
      OutSameOutside s t 0 (2 * K) ∧
      t = { s with
        outMem := t.outMem
        outOff := BitVec.ofNat 32 (2 * K)
        status := s.status ||| flagIf (decide (regNat s.len % B ≠ 0)) .traildrop
          ||| flagIf ((List.range (j + 1)).any fun k => headerClamps (s.blockAt (k * B)) st) .predclamp
          ||| 0x00000008#32
        ch0 := sets.1
        ch1 := sets.2 }

/-- R123: decoding the blocks one at a time with ADPCM.BLK (IN_OFF = k * B, BLK_SIZE = B, OUT_OFF carried over from 0) gives the
same OUT, the same OUT_OFF and the same predictor sets as ADPCM.DEC. -/
def Obligations.AdpcmDecEqualsBlockWalk : Prop :=
  ∀ s : State, adpcmDecReady s →
    s.blockCount * blockOutput (isStereo s) (regNat s.blockAlign) ≤ s.outCap →
    ∃ t u, exec .adpcmDec s = .next t ∧
      blkWalk (regNat s.blockAlign) s.blockCount 0 { s with outOff := 0#32 } = .next u ∧
      u.outMem = t.outMem ∧ u.outOff = t.outOff ∧ u.ch0 = t.ch0 ∧ u.ch1 = t.ch1

/-- R115 (c) for the block decodes: ADPCM.BLK on a block, and ADPCM.DEC on one block or more, with at least one data byte and
an output that fits, leave a delta of 16 to 8388607 in ch[0], and in stereo in ch[1]. -/
def Obligations.BlockDecodeDeltaStaysInRange : Prop :=
  (∀ s : State, adpcmBlkReady s → headerSize (isStereo s) < s.blkBytes →
    regNat s.outOff + blockOutput (isStereo s) s.blkBytes ≤ s.outCap →
    ∃ t, exec .adpcmBlk s = .next t ∧
      ∀ c, c = .ch0 ∨ isStereo s = true → 16 ≤ (t.ch c).delta.toInt ∧ (t.ch c).delta.toInt ≤ 8388607) ∧
  (∀ s : State, adpcmDecReady s → headerSize (isStereo s) < regNat s.blockAlign → s.blockCount ≠ 0 →
    s.blockCount * blockOutput (isStereo s) (regNat s.blockAlign) ≤ s.outCap →
    ∃ t, exec .adpcmDec s = .next t ∧
      ∀ c, c = .ch0 ∨ isStereo s = true → 16 ≤ (t.ch c).delta.toInt ∧ (t.ch c).delta.toInt ≤ 8388607)

-- PASS and DEC.

/-- PASS completes when LEN fits both spaces: OUT bytes 0 to LEN - 1 are IN's, OUT_OFF = LEN, nothing else changes (R140). -/
def Obligations.PassCompletes : Prop :=
  ∀ s : State, regNat s.len ≤ s.inCap → regNat s.len ≤ s.outCap → ∃ t, exec .pass s = .next t ∧ PassDone s t

/-- PASS whose output does not fit copies OUT_CAP bytes and ends with OUTOVF and OUT_OFF = OUT_CAP (R140, R174). -/
def Obligations.PassOverflows : Prop :=
  ∀ s : State, regNat s.len ≤ s.inCap → s.outCap < regNat s.len → ∃ t, exec .pass s = .next t ∧
    (∀ a, a < s.outCap → t.outByte a = s.inByte a) ∧ OutSameOutside s t 0 s.outCap ∧
    t = { s with outMem := t.outMem, outOff := BitVec.ofNat 32 s.outCap, status := s.status ||| 0x00000008#32 }

/-- R141: DEC's state changes, flags and faults are exactly those of the command that FMT_TAG selects. -/
def Obligations.DecIsTheSelectedCommand : Prop :=
  ∀ s : State, exec .dec s =
    if s.fmtTag = 1#2 then exec .alawDec s else if s.fmtTag = 2#2 then exec .adpcmDec s else exec .pass s

/-- DEC completes as the decoder its tag selects does (R141); tags 0 and 3 copy, with no fault and no flag (R143). -/
def Obligations.DecCompletes : Prop :=
  ∀ s : State,
    (s.fmtTag = 1#2 → 2 * alawCount s ≤ s.outCap → ∃ t, exec .dec s = .next t ∧ AlawDone s t) ∧
    (s.fmtTag = 2#2 → adpcmDecReady s → s.blockCount * blockOutput (isStereo s) (regNat s.blockAlign) ≤ s.outCap →
      ∃ t, exec .dec s = .next t ∧ AdpcmDecDone s t) ∧
    (s.fmtTag = 0#2 ∨ s.fmtTag = 3#2 → regNat s.len ≤ s.inCap → regNat s.len ≤ s.outCap →
      ∃ t, exec .dec s = .next t ∧ PassDone s t)

-- The faults of configuration and range.

/-- R172: ConfigError sets CFGERR (bit 1) and changes nothing else, when CHANNELS is neither 1 nor 2, and in ADPCM.DEC when
BLOCK_ALIGN is 0; also through DEC. Nothing else raises it: not ALAW.DEC, PASS or ADPCM.NIB, not ADPCM.BLK with legal CHANNELS
(any BLOCK_ALIGN), not ADPCM.DEC with both legal, not DEC with those or with another tag than 2. -/
def Obligations.ConfigErrorTaken : Prop :=
  (∀ s : State, s.channels ≠ 1#32 → s.channels ≠ 2#32 →
    exec .adpcmBlk s = .next { s with status := s.status ||| 0x00000002#32 }) ∧
  (∀ s : State, (s.channels ≠ 1#32 ∧ s.channels ≠ 2#32) ∨ s.blockAlign = 0#32 →
    exec .adpcmDec s = .next { s with status := s.status ||| 0x00000002#32 } ∧
    (s.fmtTag = 2#2 → exec .dec s = .next { s with status := s.status ||| 0x00000002#32 })) ∧
  (∀ (s t : State) (c : Chan) (n : Nibble),
    exec .alawDec s = .next t ∨ exec .pass s = .next t ∨ exec (.adpcmNib c n) s = .next t →
    t.status.getLsbD 1 = s.status.getLsbD 1) ∧
  (∀ s t : State, s.channels = 1#32 ∨ s.channels = 2#32 → exec .adpcmBlk s = .next t →
    t.status.getLsbD 1 = s.status.getLsbD 1) ∧
  (∀ s t : State, s.channels = 1#32 ∨ s.channels = 2#32 → s.blockAlign ≠ 0#32 → exec .adpcmDec s = .next t →
    t.status.getLsbD 1 = s.status.getLsbD 1) ∧
  (∀ s t : State, s.fmtTag ≠ 2#2 ∨ ((s.channels = 1#32 ∨ s.channels = 2#32) ∧ s.blockAlign ≠ 0#32) →
    exec .dec s = .next t → t.status.getLsbD 1 = s.status.getLsbD 1)

/-- R173: InputRange sets INRANGE (bit 2) and changes nothing else: ADPCM.DEC (its configuration legal, R176) and PASS when
LEN > IN_CAP, ADPCM.BLK when a block that is not skipped reaches past IN_CAP; DEC as the command it selects. Nothing else
raises it: not LEN <= IN_CAP, not a skipped block or one that lies in IN, not ALAW.DEC, not ADPCM.NIB. -/
def Obligations.InputRangeTaken : Prop :=
  (∀ s : State, s.inCap < regNat s.len →
    exec .pass s = .next { s with status := s.status ||| 0x00000004#32 } ∧
    (s.fmtTag = 0#2 ∨ s.fmtTag = 3#2 → exec .dec s = .next { s with status := s.status ||| 0x00000004#32 }) ∧
    (channelsLegal s = true → s.blockAlign ≠ 0#32 →
      exec .adpcmDec s = .next { s with status := s.status ||| 0x00000004#32 } ∧
      (s.fmtTag = 2#2 → exec .dec s = .next { s with status := s.status ||| 0x00000004#32 }))) ∧
  (∀ s : State, channelsLegal s = true → headerSize (isStereo s) ≤ s.blkBytes →
    s.inCap < regNat s.inOff + s.blkBytes →
    exec .adpcmBlk s = .next { s with status := s.status ||| 0x00000004#32 }) ∧
  (∀ s t : State, exec .alawDec s = .next t → t.status.getLsbD 2 = s.status.getLsbD 2) ∧
  (∀ (s t : State) (c : Chan) (n : Nibble), exec (.adpcmNib c n) s = .next t →
    t.status.getLsbD 2 = s.status.getLsbD 2) ∧
  (∀ s t : State, regNat s.len ≤ s.inCap → exec .pass s = .next t ∨ exec .adpcmDec s = .next t →
    t.status.getLsbD 2 = s.status.getLsbD 2) ∧
  (∀ s t : State, s.blkBytes < headerSize (isStereo s) ∨ regNat s.inOff + s.blkBytes ≤ s.inCap →
    exec .adpcmBlk s = .next t → t.status.getLsbD 2 = s.status.getLsbD 2) ∧
  (∀ s t : State, s.fmtTag = 1#2 ∨ regNat s.len ≤ s.inCap → exec .dec s = .next t →
    t.status.getLsbD 2 = s.status.getLsbD 2)

-- What commands never do.

/-- No command changes the parameters, the registers only the host writes, IN or the host's own side (R21, R25 to R30, R51);
RESULT is ADPCM.NIB's alone (R32); the predictor sets change in the ADPCM commands only (R104, R140). -/
def Obligations.CommandFrame : Prop :=
  ∀ (i : Instr) (s t : State), exec i s = .next t →
    SameHostSide s t ∧
    ((∀ c n, i ≠ .adpcmNib c n) → t.result = s.result) ∧
    ((i = .alawDec ∨ i = .pass ∨ (i = .dec ∧ s.fmtTag ≠ 2#2)) → t.ch0 = s.ch0 ∧ t.ch1 = s.ch1)

/-- A command changes only the output bytes between where it starts and the OUT_OFF it leaves (R31, R52): from 0 for the
whole-buffer commands, from OUT_OFF for ADPCM.BLK; ADPCM.NIB changes no byte of OUT and not OUT_OFF. -/
def Obligations.CommandWritesOnlyItsOutput : Prop :=
  ∀ (i : Instr) (s t : State), exec i s = .next t →
    (wholeBuffer i = true → OutSameOutside s t 0 (regNat t.outOff)) ∧
    (i = .adpcmBlk → OutSameOutside s t (regNat s.outOff) (regNat t.outOff)) ∧
    ((∃ c n, i = .adpcmNib c n) → t.outMem = s.outMem ∧ t.outOff = s.outOff ∧ t.status = s.status)

/-- A mono block decode neither reads nor writes ch[1] (R34). -/
def Obligations.MonoDecodeIgnoresChannelOne : Prop :=
  ∀ (i : Instr) (s : State) (q : Predictor), i = .adpcmBlk ∨ i = .adpcmDec → s.channels = 1#32 →
    ∃ t, exec i s = .next t ∧ t.ch1 = s.ch1 ∧ exec i { s with ch1 := q } = .next { t with ch1 := q }

/-- Flags are sticky: the engine only ever sets them (R24, R179). -/
def Obligations.CommandsNeverClearFlags : Prop :=
  ∀ (i : Instr) (s t : State), exec i s = .next t → s.status &&& t.status = s.status

/-- No command reads STATUS: started with any flags, a command does the same and adds the same flags (R24). -/
def Obligations.CommandsNeverReadStatus : Prop :=
  ∀ (i : Instr) (s : State) (x : Word), ∃ (t : State) (f : Word),
    exec i s = .next t ∧ t.status = s.status ||| f ∧
    exec i { s with status := x } = .next { t with status := x ||| f }

/-- A command reports at most one fault, and one that ends in ConfigError or InputRange sets nothing beside it (R176). -/
def Obligations.OneFaultPerCommand : Prop :=
  ∀ (i : Instr) (s t : State), s.status = 0#32 → exec i s = .next t →
    t.status = 0x00000002#32 ∨ t.status = 0x00000004#32 ∨
    (t.status &&& 0x00000007#32 = 0#32 ∧ t.status &&& ~~~0x00000708#32 = 0#32)

-- Independence and repetition.

/-- R127: what the predictor registers, STATUS, RESULT and (but for ADPCM.BLK, which starts there) OUT_OFF held before changes
nothing in a decode command's OUT and flags, nor in its OUT_OFF, which a ConfigError or InputRange leaves alone. -/
def Obligations.DecodeIgnoresLeftoverState : Prop :=
  ∀ (i : Instr) (s s' : State), wholeBuffer i = true ∨ (i = .adpcmBlk ∧ s'.outOff = s.outOff) → SameInputs s s' →
    ∃ (t t' : State) (f : Word), exec i s = .next t ∧ exec i s' = .next t' ∧
      t'.outMem = t.outMem ∧ t.status = s.status ||| f ∧ t'.status = s'.status ||| f ∧
      (f &&& 0x00000006#32 = 0#32 → t'.outOff = t.outOff)

/-- R127: a decode command run again, with nothing touched between (for ADPCM.BLK: OUT_OFF restored), leaves every byte of OUT,
OUT_OFF, STATUS and the predictor registers as its first run did. -/
def Obligations.DecodeTwiceGivesTheSame : Prop :=
  ∀ (i : Instr) (s t u : State), exec i s = .next t →
    (wholeBuffer i = true ∧ exec i t = .next u) ∨ (i = .adpcmBlk ∧ exec i { t with outOff := s.outOff } = .next u) →
    (∀ a, u.outByte a = t.outByte a) ∧ u.outOff = t.outOff ∧ u.status = t.status ∧ u.ch0 = t.ch0 ∧ u.ch1 = t.ch1

/-- No fault depends on the data (R105, R125, R170): whatever bytes IN holds, a command ends in the same fault or none, with
the same OUT_OFF. -/
def Obligations.FaultsDependOnNoData : Prop :=
  ∀ (i : Instr) (s : State) (m : Memory), ∃ t t' : State,
    exec i s = .next t ∧ exec i { s with inMem := m } = .next t' ∧
    t'.status &&& 0x0000000F#32 = t.status &&& 0x0000000F#32 ∧ t'.outOff = t.outOff

-- The register file and the buffers, as the host sees them.

/-- A host write of a read-write register is read back, under the register's own width, and changes no other register, no byte
of IN or OUT (R22, R25 to R31, R37, R38, R57). -/
def Obligations.RegisterWriteReadsBack : Prop :=
  ∀ (s : State) (r : Reg) (v x : Word) (rest : List HostOp),
    s.host = .regWrite .word (regOffset r) v :: rest → readBack v r = some x →
    ∃ t, step s = .next t ∧ readReg t r = x ∧ (∀ r', r' ≠ r → readReg t r' = readReg s r') ∧
      t.inMem = s.inMem ∧ t.outMem = s.outMem ∧ t.params = s.params ∧ t.epoch = s.epoch ∧ t.host = rest ∧
      t.readData = s.readData

/-- Host writes to read-only registers (R22, R36) and to offsets that hold no register (R45) are ignored. -/
def Obligations.ReadOnlyWritesIgnored : Prop :=
  ∀ (s : State) (off : Nat) (v : Word) (rest : List HostOp),
    s.host = .regWrite .word off v :: rest →
    off ∈ [0x24, 0x28, 0x2C, 0x44, 0x48, 0x64, 0x68] ∨
      off ∈ [0x30, 0x34, 0x38, 0x3C, 0x58, 0x5C, 0x78, 0x7C] →
    step s = .next { s with host := rest }

/-- A host write of STATUS clears exactly the flags written 1 and changes nothing else (R24). -/
def Obligations.StatusWriteOneToClear : Prop :=
  ∀ (s : State) (v : Word) (rest : List HostOp), s.host = .regWrite .word 0x04 v :: rest →
    ∃ t, step s = .next t ∧ (∀ k, t.status.getLsbD k = (s.status.getLsbD k && !v.getLsbD k)) ∧
      t = { s with host := rest, status := t.status }

/-- A host register read returns the register and changes nothing else (R57): CMD and CHn_PRED read 0 (R23, R35), STATUS its
seven flags (R24), RESULT, CHn_S1 and CHn_S2 sign-extended (R32, R38), the capacities (R33), offsets without a register 0 (R45). -/
def Obligations.RegisterReadsReturn : Prop :=
  ∀ (s : State) (off : Nat) (rest : List HostOp), s.host = .regRead .word off :: rest → off % 4 = 0 → off < 0x80 →
    ∃ w, step s = .next { s with host := rest, readData := w } ∧
      (off ∈ [0x00, 0x40, 0x60, 0x30, 0x34, 0x38, 0x3C, 0x58, 0x5C, 0x78, 0x7C] → w = 0#32) ∧
      (off = 0x04 → ∀ k, w.getLsbD k = (s.status.getLsbD k && decide (k ∈ [0, 1, 2, 3, 8, 9, 10]))) ∧
      (off = 0x08 → w.toNat = s.fmtTag.toNat) ∧ (off = 0x0C → w = s.channels) ∧ (off = 0x10 → w = s.blockAlign) ∧
      (off = 0x14 → w = s.len) ∧ (off = 0x18 → w = s.inOff) ∧ (off = 0x1C → w = s.blkSize) ∧
      (off = 0x20 → w = s.outOff) ∧ (off = 0x24 → w.toInt = s.result.toInt) ∧
      (off = 0x28 → w.toNat = s.inCap) ∧ (off = 0x2C → w.toNat = s.outCap) ∧
      (∀ (c : Chan) (base : Nat), base = (if c = .ch0 then 0x40 else 0x60) →
        (off = base + 0x04 → w = (s.ch c).coeff1) ∧ (off = base + 0x08 → w = (s.ch c).coeff2) ∧
        (off = base + 0x0C → w = (s.ch c).delta) ∧ (off = base + 0x10 → w.toInt = (s.ch c).sample1.toInt) ∧
        (off = base + 0x14 → w.toInt = (s.ch c).sample2.toInt))

/-- R35: a host write of v to CHn_PRED selects the coefficient pair number min(v, 6) and sets PREDCLAMP (bit 10) when v > 6;
nothing else changes. -/
def Obligations.PredWriteSelectsCoefficients : Prop :=
  ∀ (s : State) (c : Chan) (v : Word) (rest : List HostOp),
    s.host = .regWrite .word (if c = .ch0 then 0x40 else 0x60) v :: rest →
    let k := min v.toNat 6
    let k1 := [256, 512, 0, 192, 240, 460, 392].getD k (0 : Int)
    let k2 := [0, -256, 0, 64, 0, -208, -232].getD k (0 : Int)
    ∃ t, step s = .next t ∧ (t.ch c).coeff1.toInt = k1 ∧ (t.ch c).coeff2.toInt = k2 ∧
      t = ({ s with host := rest, status := if 6 < v.toNat then s.status ||| 0x00000400#32 else s.status }).setCh c
        { s.ch c with coeff1 := (t.ch c).coeff1, coeff2 := (t.ch c).coeff2 }

/-- A host byte write of IN or OUT is read back by the space's bytes and leaves every other byte and everything else alone; a
host byte read returns the byte and changes nothing else (R51, R52, R57). -/
def Obligations.HostBufferAccess : Prop :=
  ∀ (s : State) (off : Nat) (b : Byte) (rest : List HostOp),
    (off < s.inCap → s.host = .inWrite off b :: rest → ∃ t, step s = .next t ∧
      (∀ a, t.inByte a = if a = off then b else s.inByte a) ∧ t = { s with host := rest, inMem := t.inMem }) ∧
    (off < s.outCap → s.host = .outWrite off b :: rest → ∃ t, step s = .next t ∧
      (∀ a, t.outByte a = if a = off then b else s.outByte a) ∧ t = { s with host := rest, outMem := t.outMem }) ∧
    (off < s.inCap → s.host = .inRead off :: rest → ∃ w, step s = .next { s with host := rest, readData := w } ∧
      w.toNat = (s.inByte off).toNat) ∧
    (off < s.outCap → s.host = .outRead off :: rest → ∃ w, step s = .next { s with host := rest, readData := w } ∧
      w.toNat = (s.outByte off).toNat)

-- Reset.

/-- The platform's reset leaves the registers R44 names at 0 and the parameters as they are, from any state (R190). -/
def Obligations.PlatformResetClearsRegisters : Prop :=
  ∀ (s : State) (rest : List HostOp), s.host = .reset :: rest →
    ∃ t, step s = .next t ∧ t.status = 0#32 ∧ t.fmtTag = 0#2 ∧ t.channels = 0#32 ∧ t.blockAlign = 0#32 ∧ t.len = 0#32 ∧
      t.inOff = 0#32 ∧ t.blkSize = 0#32 ∧ t.outOff = 0#32 ∧ t.result = 0#16 ∧ t.params = s.params ∧ t.host = rest

/-- R191: the commands issued straight after a reset of any instance. ALAW.DEC, PASS and DEC write nothing and leave OUT_OFF 0,
ADPCM.DEC and ADPCM.BLK raise ConfigError, ADPCM.NIB leaves a delta of 16 to 8388607. -/
def Obligations.CommandsStraightAfterReset : Prop :=
  ∀ (p : Params) (epoch : Nat),
    let r := State.resetWith p epoch
    exec .alawDec r = .next r ∧ exec .pass r = .next r ∧ exec .dec r = .next r ∧
    exec .adpcmDec r = .next { r with status := 0x00000002#32 } ∧
    exec .adpcmBlk r = .next { r with status := 0x00000002#32 } ∧
    (∀ c n, ∃ t, exec (.adpcmNib c n) r = .next t ∧
      16 ≤ (t.ch c).delta.toInt ∧ (t.ch c).delta.toInt ≤ 8388607 ∧ t.outMem = [] ∧ t.status = 0#32)

-- Invariants of every step.

/-- The machine invariant holds after a reset of any instance. -/
def Obligations.ResetMeetsInvariant : Prop :=
  ∀ (p : Params) (epoch : Nat), (State.resetWith p epoch).Inv ∧ State.reset.Inv

/-- Every step keeps the machine invariant: STATUS holds no reserved bit, both memories stay canonical and inside their space. -/
def Obligations.StepKeepsInvariant : Prop :=
  ∀ s t : State, s.Inv → step s = .next t → t.Inv

/-- R35: a channel's coefficients, once one of the seven table pairs, stay one through every step that is not a reset; and a write
to CHn_PRED makes them one. -/
def Obligations.TablePairsPersist : Prop :=
  (∀ (s t : State) (c : Chan), (∀ rest, s.host ≠ .reset :: rest) → (s.ch c).tablePair → step s = .next t → (t.ch c).tablePair) ∧
  (∀ (s t : State) (c : Chan) (v : Word) (rest : List HostOp),
    s.host = .regWrite .word (regOffset (.pred c)) v :: rest → step s = .next t → (t.ch c).tablePair)

/-- No step changes the parameters (R21, R33). -/
def Obligations.ParametersNeverChange : Prop :=
  ∀ s t : State, step s = .next t → t.params = s.params

-- The host functions.

/-- R152: `translateForDevice`. -/
def Obligations.TranslateForDeviceResult : Prop :=
  ∀ fmt : FormatDescriptor,
    (fmt.formatTag = .linearPCM → translateForDevice fmt = fmt) ∧
    (fmt.formatTag ≠ .linearPCM →
      translateForDevice fmt =
        { formatTag := fmt.formatTag, channelCount := fmt.channelCount, bitsPerSample := 16,
          samplesPerSec := fmt.samplesPerSec, blockAlign := fmt.channelCount * 2,
          avgBytesPerSec := fmt.channelCount * 2 * fmt.samplesPerSec, extraData := none })

/-- R153 to R156: `estimateOutputSize` of a non-negative length, over the integers; no value (a refusal) at a zero divisor. -/
def Obligations.EstimateOutputSizeResult : Prop :=
  ∀ (n : Int) (fmt : FormatDescriptor),
    let ratio : Int := (fmt.channelCount * 16 : Int) / fmt.bitsPerSample
    (2147483647 < n → estimateOutputSize n fmt = .sizeOverflow) ∧
    (0 ≤ n → n ≤ 2147483647 →
      (fmt.formatTag = .linearPCM ∨ fmt.formatTag = .other → estimateOutputSize n fmt = .size n) ∧
      (fmt.formatTag = .aLaw → fmt.bitsPerSample ≠ 0 → estimateOutputSize n fmt = .size (n * ratio)) ∧
      (fmt.formatTag = .aLaw → fmt.bitsPerSample = 0 → estimateOutputSize n fmt = .noValue) ∧
      (fmt.formatTag = .adpcmMS → fmt.bitsPerSample ≠ 0 → fmt.blockAlign ≠ 0 →
        estimateOutputSize n fmt = .size (n * ratio - n / fmt.blockAlign * 7 * fmt.channelCount)) ∧
      (fmt.formatTag = .adpcmMS → (fmt.bitsPerSample = 0 ∨ fmt.blockAlign = 0) → estimateOutputSize n fmt = .noValue))

/-- R157: with 8-bit A-law or 4-bit ADPCM (blocks long enough for a header) or a pass-through tag, an output space of at least the
estimate is always large enough: DEC, set up as R159 says, completes without any fault, and writes at most the estimate. A
blockAlign of 2^32 or more fits no register and is left out (log entry 20). -/
def Obligations.EstimateCoversOutput : Prop :=
  ∀ (s : State) (fmt : FormatDescriptor) (n : Nat) (E : Int),
    fmt.wellFormed = true → fmt.blockAlign < 2 ^ 32 → n ≤ s.inCap →
    (fmt.formatTag = .aLaw → fmt.bitsPerSample = 8) →
    (fmt.formatTag = .adpcmMS → fmt.bitsPerSample = 4 ∧ 7 * fmt.channelCount ≤ fmt.blockAlign) →
    estimateOutputSize n fmt = .size E → E ≤ s.outCap →
    ∃ t, exec .dec (hostSetup s fmt n) = .next t ∧ (regNat t.outOff : Int) ≤ E ∧
      t.status &&& 0x0000000F#32 = s.status &&& 0x0000000F#32
end

