-- ==== Sys2Proof/Laws/State.lean ====
section
/-! SUPPORT. One lemma per field per update of the state, each true by rfl (setCh: by the case of its channel). -/

namespace Sys2Proof.Machine

@[simp] theorem State.params_setFlag (s : State) (f : Flag) : (s.setFlag f).params = s.params := rfl
@[simp] theorem State.status_setFlag (s : State) (f : Flag) : (s.setFlag f).status = s.status ||| f.mask := rfl
@[simp] theorem State.fmtTag_setFlag (s : State) (f : Flag) : (s.setFlag f).fmtTag = s.fmtTag := rfl
@[simp] theorem State.channels_setFlag (s : State) (f : Flag) : (s.setFlag f).channels = s.channels := rfl
@[simp] theorem State.blockAlign_setFlag (s : State) (f : Flag) : (s.setFlag f).blockAlign = s.blockAlign := rfl
@[simp] theorem State.len_setFlag (s : State) (f : Flag) : (s.setFlag f).len = s.len := rfl
@[simp] theorem State.inOff_setFlag (s : State) (f : Flag) : (s.setFlag f).inOff = s.inOff := rfl
@[simp] theorem State.blkSize_setFlag (s : State) (f : Flag) : (s.setFlag f).blkSize = s.blkSize := rfl
@[simp] theorem State.outOff_setFlag (s : State) (f : Flag) : (s.setFlag f).outOff = s.outOff := rfl
@[simp] theorem State.result_setFlag (s : State) (f : Flag) : (s.setFlag f).result = s.result := rfl
@[simp] theorem State.ch0_setFlag (s : State) (f : Flag) : (s.setFlag f).ch0 = s.ch0 := rfl
@[simp] theorem State.ch1_setFlag (s : State) (f : Flag) : (s.setFlag f).ch1 = s.ch1 := rfl
@[simp] theorem State.inMem_setFlag (s : State) (f : Flag) : (s.setFlag f).inMem = s.inMem := rfl
@[simp] theorem State.outMem_setFlag (s : State) (f : Flag) : (s.setFlag f).outMem = s.outMem := rfl
@[simp] theorem State.epoch_setFlag (s : State) (f : Flag) : (s.setFlag f).epoch = s.epoch := rfl
@[simp] theorem State.host_setFlag (s : State) (f : Flag) : (s.setFlag f).host = s.host := rfl
@[simp] theorem State.readData_setFlag (s : State) (f : Flag) : (s.setFlag f).readData = s.readData := rfl
@[simp] theorem State.inCap_setFlag (s : State) (f : Flag) : (s.setFlag f).inCap = s.inCap := rfl
@[simp] theorem State.outCap_setFlag (s : State) (f : Flag) : (s.setFlag f).outCap = s.outCap := rfl
@[simp] theorem State.ch_setFlag (s : State) (f : Flag) (c : Chan) : (s.setFlag f).ch c = s.ch c := by cases c <;> rfl
@[simp] theorem State.inByte_setFlag (s : State) (f : Flag) (x : Nat) : (s.setFlag f).inByte x = s.inByte x := rfl
@[simp] theorem State.outByte_setFlag (s : State) (f : Flag) (x : Nat) : (s.setFlag f).outByte x = s.outByte x := rfl

@[simp] theorem State.params_clearFlags (s : State) (w : Word) : (s.clearFlags w).params = s.params := rfl
@[simp] theorem State.status_clearFlags (s : State) (w : Word) : (s.clearFlags w).status = s.status &&& ~~~w := rfl
@[simp] theorem State.fmtTag_clearFlags (s : State) (w : Word) : (s.clearFlags w).fmtTag = s.fmtTag := rfl
@[simp] theorem State.channels_clearFlags (s : State) (w : Word) : (s.clearFlags w).channels = s.channels := rfl
@[simp] theorem State.blockAlign_clearFlags (s : State) (w : Word) : (s.clearFlags w).blockAlign = s.blockAlign := rfl
@[simp] theorem State.len_clearFlags (s : State) (w : Word) : (s.clearFlags w).len = s.len := rfl
@[simp] theorem State.inOff_clearFlags (s : State) (w : Word) : (s.clearFlags w).inOff = s.inOff := rfl
@[simp] theorem State.blkSize_clearFlags (s : State) (w : Word) : (s.clearFlags w).blkSize = s.blkSize := rfl
@[simp] theorem State.outOff_clearFlags (s : State) (w : Word) : (s.clearFlags w).outOff = s.outOff := rfl
@[simp] theorem State.result_clearFlags (s : State) (w : Word) : (s.clearFlags w).result = s.result := rfl
@[simp] theorem State.ch0_clearFlags (s : State) (w : Word) : (s.clearFlags w).ch0 = s.ch0 := rfl
@[simp] theorem State.ch1_clearFlags (s : State) (w : Word) : (s.clearFlags w).ch1 = s.ch1 := rfl
@[simp] theorem State.inMem_clearFlags (s : State) (w : Word) : (s.clearFlags w).inMem = s.inMem := rfl
@[simp] theorem State.outMem_clearFlags (s : State) (w : Word) : (s.clearFlags w).outMem = s.outMem := rfl
@[simp] theorem State.epoch_clearFlags (s : State) (w : Word) : (s.clearFlags w).epoch = s.epoch := rfl
@[simp] theorem State.host_clearFlags (s : State) (w : Word) : (s.clearFlags w).host = s.host := rfl
@[simp] theorem State.readData_clearFlags (s : State) (w : Word) : (s.clearFlags w).readData = s.readData := rfl
@[simp] theorem State.inCap_clearFlags (s : State) (w : Word) : (s.clearFlags w).inCap = s.inCap := rfl
@[simp] theorem State.outCap_clearFlags (s : State) (w : Word) : (s.clearFlags w).outCap = s.outCap := rfl
@[simp] theorem State.ch_clearFlags (s : State) (w : Word) (c : Chan) : (s.clearFlags w).ch c = s.ch c := by cases c <;> rfl
@[simp] theorem State.inByte_clearFlags (s : State) (w : Word) (x : Nat) : (s.clearFlags w).inByte x = s.inByte x := rfl
@[simp] theorem State.outByte_clearFlags (s : State) (w : Word) (x : Nat) : (s.clearFlags w).outByte x = s.outByte x := rfl

@[simp] theorem State.params_putIn (s : State) (a : Nat) (b : Byte) : (s.putIn a b).params = s.params := rfl
@[simp] theorem State.status_putIn (s : State) (a : Nat) (b : Byte) : (s.putIn a b).status = s.status := rfl
@[simp] theorem State.fmtTag_putIn (s : State) (a : Nat) (b : Byte) : (s.putIn a b).fmtTag = s.fmtTag := rfl
@[simp] theorem State.channels_putIn (s : State) (a : Nat) (b : Byte) : (s.putIn a b).channels = s.channels := rfl
@[simp] theorem State.blockAlign_putIn (s : State) (a : Nat) (b : Byte) : (s.putIn a b).blockAlign = s.blockAlign := rfl
@[simp] theorem State.len_putIn (s : State) (a : Nat) (b : Byte) : (s.putIn a b).len = s.len := rfl
@[simp] theorem State.inOff_putIn (s : State) (a : Nat) (b : Byte) : (s.putIn a b).inOff = s.inOff := rfl
@[simp] theorem State.blkSize_putIn (s : State) (a : Nat) (b : Byte) : (s.putIn a b).blkSize = s.blkSize := rfl
@[simp] theorem State.outOff_putIn (s : State) (a : Nat) (b : Byte) : (s.putIn a b).outOff = s.outOff := rfl
@[simp] theorem State.result_putIn (s : State) (a : Nat) (b : Byte) : (s.putIn a b).result = s.result := rfl
@[simp] theorem State.ch0_putIn (s : State) (a : Nat) (b : Byte) : (s.putIn a b).ch0 = s.ch0 := rfl
@[simp] theorem State.ch1_putIn (s : State) (a : Nat) (b : Byte) : (s.putIn a b).ch1 = s.ch1 := rfl
@[simp] theorem State.inMem_putIn (s : State) (a : Nat) (b : Byte) : (s.putIn a b).inMem = s.inMem.set a b := rfl
@[simp] theorem State.outMem_putIn (s : State) (a : Nat) (b : Byte) : (s.putIn a b).outMem = s.outMem := rfl
@[simp] theorem State.epoch_putIn (s : State) (a : Nat) (b : Byte) : (s.putIn a b).epoch = s.epoch := rfl
@[simp] theorem State.host_putIn (s : State) (a : Nat) (b : Byte) : (s.putIn a b).host = s.host := rfl
@[simp] theorem State.readData_putIn (s : State) (a : Nat) (b : Byte) : (s.putIn a b).readData = s.readData := rfl
@[simp] theorem State.inCap_putIn (s : State) (a : Nat) (b : Byte) : (s.putIn a b).inCap = s.inCap := rfl
@[simp] theorem State.outCap_putIn (s : State) (a : Nat) (b : Byte) : (s.putIn a b).outCap = s.outCap := rfl
@[simp] theorem State.ch_putIn (s : State) (a : Nat) (b : Byte) (c : Chan) : (s.putIn a b).ch c = s.ch c := by cases c <;> rfl
@[simp] theorem State.outByte_putIn (s : State) (a : Nat) (b : Byte) (x : Nat) : (s.putIn a b).outByte x = s.outByte x := rfl

@[simp] theorem State.params_putOut (s : State) (a : Nat) (b : Byte) : (s.putOut a b).params = s.params := rfl
@[simp] theorem State.status_putOut (s : State) (a : Nat) (b : Byte) : (s.putOut a b).status = s.status := rfl
@[simp] theorem State.fmtTag_putOut (s : State) (a : Nat) (b : Byte) : (s.putOut a b).fmtTag = s.fmtTag := rfl
@[simp] theorem State.channels_putOut (s : State) (a : Nat) (b : Byte) : (s.putOut a b).channels = s.channels := rfl
@[simp] theorem State.blockAlign_putOut (s : State) (a : Nat) (b : Byte) : (s.putOut a b).blockAlign = s.blockAlign := rfl
@[simp] theorem State.len_putOut (s : State) (a : Nat) (b : Byte) : (s.putOut a b).len = s.len := rfl
@[simp] theorem State.inOff_putOut (s : State) (a : Nat) (b : Byte) : (s.putOut a b).inOff = s.inOff := rfl
@[simp] theorem State.blkSize_putOut (s : State) (a : Nat) (b : Byte) : (s.putOut a b).blkSize = s.blkSize := rfl
@[simp] theorem State.outOff_putOut (s : State) (a : Nat) (b : Byte) : (s.putOut a b).outOff = s.outOff := rfl
@[simp] theorem State.result_putOut (s : State) (a : Nat) (b : Byte) : (s.putOut a b).result = s.result := rfl
@[simp] theorem State.ch0_putOut (s : State) (a : Nat) (b : Byte) : (s.putOut a b).ch0 = s.ch0 := rfl
@[simp] theorem State.ch1_putOut (s : State) (a : Nat) (b : Byte) : (s.putOut a b).ch1 = s.ch1 := rfl
@[simp] theorem State.inMem_putOut (s : State) (a : Nat) (b : Byte) : (s.putOut a b).inMem = s.inMem := rfl
@[simp] theorem State.outMem_putOut (s : State) (a : Nat) (b : Byte) : (s.putOut a b).outMem = s.outMem.set a b := rfl
@[simp] theorem State.epoch_putOut (s : State) (a : Nat) (b : Byte) : (s.putOut a b).epoch = s.epoch := rfl
@[simp] theorem State.host_putOut (s : State) (a : Nat) (b : Byte) : (s.putOut a b).host = s.host := rfl
@[simp] theorem State.readData_putOut (s : State) (a : Nat) (b : Byte) : (s.putOut a b).readData = s.readData := rfl
@[simp] theorem State.inCap_putOut (s : State) (a : Nat) (b : Byte) : (s.putOut a b).inCap = s.inCap := rfl
@[simp] theorem State.outCap_putOut (s : State) (a : Nat) (b : Byte) : (s.putOut a b).outCap = s.outCap := rfl
@[simp] theorem State.ch_putOut (s : State) (a : Nat) (b : Byte) (c : Chan) : (s.putOut a b).ch c = s.ch c := by cases c <;> rfl
@[simp] theorem State.inByte_putOut (s : State) (a : Nat) (b : Byte) (x : Nat) : (s.putOut a b).inByte x = s.inByte x := rfl

@[simp] theorem State.params_setOutOff (s : State) (o : Nat) : (s.setOutOff o).params = s.params := rfl
@[simp] theorem State.status_setOutOff (s : State) (o : Nat) : (s.setOutOff o).status = s.status := rfl
@[simp] theorem State.fmtTag_setOutOff (s : State) (o : Nat) : (s.setOutOff o).fmtTag = s.fmtTag := rfl
@[simp] theorem State.channels_setOutOff (s : State) (o : Nat) : (s.setOutOff o).channels = s.channels := rfl
@[simp] theorem State.blockAlign_setOutOff (s : State) (o : Nat) : (s.setOutOff o).blockAlign = s.blockAlign := rfl
@[simp] theorem State.len_setOutOff (s : State) (o : Nat) : (s.setOutOff o).len = s.len := rfl
@[simp] theorem State.inOff_setOutOff (s : State) (o : Nat) : (s.setOutOff o).inOff = s.inOff := rfl
@[simp] theorem State.blkSize_setOutOff (s : State) (o : Nat) : (s.setOutOff o).blkSize = s.blkSize := rfl
@[simp] theorem State.outOff_setOutOff (s : State) (o : Nat) : (s.setOutOff o).outOff = BitVec.ofNat 32 o := rfl
@[simp] theorem State.result_setOutOff (s : State) (o : Nat) : (s.setOutOff o).result = s.result := rfl
@[simp] theorem State.ch0_setOutOff (s : State) (o : Nat) : (s.setOutOff o).ch0 = s.ch0 := rfl
@[simp] theorem State.ch1_setOutOff (s : State) (o : Nat) : (s.setOutOff o).ch1 = s.ch1 := rfl
@[simp] theorem State.inMem_setOutOff (s : State) (o : Nat) : (s.setOutOff o).inMem = s.inMem := rfl
@[simp] theorem State.outMem_setOutOff (s : State) (o : Nat) : (s.setOutOff o).outMem = s.outMem := rfl
@[simp] theorem State.epoch_setOutOff (s : State) (o : Nat) : (s.setOutOff o).epoch = s.epoch := rfl
@[simp] theorem State.host_setOutOff (s : State) (o : Nat) : (s.setOutOff o).host = s.host := rfl
@[simp] theorem State.readData_setOutOff (s : State) (o : Nat) : (s.setOutOff o).readData = s.readData := rfl
@[simp] theorem State.inCap_setOutOff (s : State) (o : Nat) : (s.setOutOff o).inCap = s.inCap := rfl
@[simp] theorem State.outCap_setOutOff (s : State) (o : Nat) : (s.setOutOff o).outCap = s.outCap := rfl
@[simp] theorem State.ch_setOutOff (s : State) (o : Nat) (c : Chan) : (s.setOutOff o).ch c = s.ch c := by cases c <;> rfl
@[simp] theorem State.inByte_setOutOff (s : State) (o : Nat) (x : Nat) : (s.setOutOff o).inByte x = s.inByte x := rfl
@[simp] theorem State.outByte_setOutOff (s : State) (o : Nat) (x : Nat) : (s.setOutOff o).outByte x = s.outByte x := rfl

@[simp] theorem State.params_setResult (s : State) (v : Half) : (s.setResult v).params = s.params := rfl
@[simp] theorem State.status_setResult (s : State) (v : Half) : (s.setResult v).status = s.status := rfl
@[simp] theorem State.fmtTag_setResult (s : State) (v : Half) : (s.setResult v).fmtTag = s.fmtTag := rfl
@[simp] theorem State.channels_setResult (s : State) (v : Half) : (s.setResult v).channels = s.channels := rfl
@[simp] theorem State.blockAlign_setResult (s : State) (v : Half) : (s.setResult v).blockAlign = s.blockAlign := rfl
@[simp] theorem State.len_setResult (s : State) (v : Half) : (s.setResult v).len = s.len := rfl
@[simp] theorem State.inOff_setResult (s : State) (v : Half) : (s.setResult v).inOff = s.inOff := rfl
@[simp] theorem State.blkSize_setResult (s : State) (v : Half) : (s.setResult v).blkSize = s.blkSize := rfl
@[simp] theorem State.outOff_setResult (s : State) (v : Half) : (s.setResult v).outOff = s.outOff := rfl
@[simp] theorem State.result_setResult (s : State) (v : Half) : (s.setResult v).result = v := rfl
@[simp] theorem State.ch0_setResult (s : State) (v : Half) : (s.setResult v).ch0 = s.ch0 := rfl
@[simp] theorem State.ch1_setResult (s : State) (v : Half) : (s.setResult v).ch1 = s.ch1 := rfl
@[simp] theorem State.inMem_setResult (s : State) (v : Half) : (s.setResult v).inMem = s.inMem := rfl
@[simp] theorem State.outMem_setResult (s : State) (v : Half) : (s.setResult v).outMem = s.outMem := rfl
@[simp] theorem State.epoch_setResult (s : State) (v : Half) : (s.setResult v).epoch = s.epoch := rfl
@[simp] theorem State.host_setResult (s : State) (v : Half) : (s.setResult v).host = s.host := rfl
@[simp] theorem State.readData_setResult (s : State) (v : Half) : (s.setResult v).readData = s.readData := rfl
@[simp] theorem State.inCap_setResult (s : State) (v : Half) : (s.setResult v).inCap = s.inCap := rfl
@[simp] theorem State.outCap_setResult (s : State) (v : Half) : (s.setResult v).outCap = s.outCap := rfl
@[simp] theorem State.ch_setResult (s : State) (v : Half) (c : Chan) : (s.setResult v).ch c = s.ch c := by cases c <;> rfl
@[simp] theorem State.inByte_setResult (s : State) (v : Half) (x : Nat) : (s.setResult v).inByte x = s.inByte x := rfl
@[simp] theorem State.outByte_setResult (s : State) (v : Half) (x : Nat) : (s.setResult v).outByte x = s.outByte x := rfl

@[simp] theorem State.params_setCh (s : State) (c : Chan) (p : Predictor) : (s.setCh c p).params = s.params := by cases c <;> rfl
@[simp] theorem State.status_setCh (s : State) (c : Chan) (p : Predictor) : (s.setCh c p).status = s.status := by cases c <;> rfl
@[simp] theorem State.fmtTag_setCh (s : State) (c : Chan) (p : Predictor) : (s.setCh c p).fmtTag = s.fmtTag := by cases c <;> rfl
@[simp] theorem State.channels_setCh (s : State) (c : Chan) (p : Predictor) : (s.setCh c p).channels = s.channels := by cases c <;> rfl
@[simp] theorem State.blockAlign_setCh (s : State) (c : Chan) (p : Predictor) : (s.setCh c p).blockAlign = s.blockAlign := by cases c <;> rfl
@[simp] theorem State.len_setCh (s : State) (c : Chan) (p : Predictor) : (s.setCh c p).len = s.len := by cases c <;> rfl
@[simp] theorem State.inOff_setCh (s : State) (c : Chan) (p : Predictor) : (s.setCh c p).inOff = s.inOff := by cases c <;> rfl
@[simp] theorem State.blkSize_setCh (s : State) (c : Chan) (p : Predictor) : (s.setCh c p).blkSize = s.blkSize := by cases c <;> rfl
@[simp] theorem State.outOff_setCh (s : State) (c : Chan) (p : Predictor) : (s.setCh c p).outOff = s.outOff := by cases c <;> rfl
@[simp] theorem State.result_setCh (s : State) (c : Chan) (p : Predictor) : (s.setCh c p).result = s.result := by cases c <;> rfl
@[simp] theorem State.inMem_setCh (s : State) (c : Chan) (p : Predictor) : (s.setCh c p).inMem = s.inMem := by cases c <;> rfl
@[simp] theorem State.outMem_setCh (s : State) (c : Chan) (p : Predictor) : (s.setCh c p).outMem = s.outMem := by cases c <;> rfl
@[simp] theorem State.epoch_setCh (s : State) (c : Chan) (p : Predictor) : (s.setCh c p).epoch = s.epoch := by cases c <;> rfl
@[simp] theorem State.host_setCh (s : State) (c : Chan) (p : Predictor) : (s.setCh c p).host = s.host := by cases c <;> rfl
@[simp] theorem State.readData_setCh (s : State) (c : Chan) (p : Predictor) : (s.setCh c p).readData = s.readData := by cases c <;> rfl
@[simp] theorem State.inCap_setCh (s : State) (c : Chan) (p : Predictor) : (s.setCh c p).inCap = s.inCap := by cases c <;> rfl
@[simp] theorem State.outCap_setCh (s : State) (c : Chan) (p : Predictor) : (s.setCh c p).outCap = s.outCap := by cases c <;> rfl
@[simp] theorem State.inByte_setCh (s : State) (c : Chan) (p : Predictor) (x : Nat) : (s.setCh c p).inByte x = s.inByte x := by cases c <;> rfl
@[simp] theorem State.outByte_setCh (s : State) (c : Chan) (p : Predictor) (x : Nat) : (s.setCh c p).outByte x = s.outByte x := by cases c <;> rfl

@[simp] theorem State.ch_setCh_same (s : State) (c : Chan) (p : Predictor) : (s.setCh c p).ch c = p := by cases c <;> rfl

theorem State.ch_setCh_other (s : State) {c d : Chan} (h : d ≠ c) (p : Predictor) : (s.setCh c p).ch d = s.ch d := by
  cases c <;> cases d <;> first | rfl | exact absurd rfl h

@[simp] theorem State.ch0_setCh_ch0 (s : State) (p : Predictor) : (s.setCh .ch0 p).ch0 = p := rfl
@[simp] theorem State.ch1_setCh_ch0 (s : State) (p : Predictor) : (s.setCh .ch0 p).ch1 = s.ch1 := rfl
@[simp] theorem State.ch0_setCh_ch1 (s : State) (p : Predictor) : (s.setCh .ch1 p).ch0 = s.ch0 := rfl
@[simp] theorem State.ch1_setCh_ch1 (s : State) (p : Predictor) : (s.setCh .ch1 p).ch1 = p := rfl
@[simp] theorem State.ch_ch0 (s : State) : s.ch .ch0 = s.ch0 := rfl
@[simp] theorem State.ch_ch1 (s : State) : s.ch .ch1 = s.ch1 := rfl

end Sys2Proof.Machine
end

