-- ==== Sys2Proof/Laws/Memory.lean ====
section
/-! SUPPORT. The laws of a space's bytes: read after write, writes leave other bytes alone, the canonical form is kept. -/

namespace Sys2Proof.Machine

theorem Memory.get?_set_same (m : Memory) (a : Nat) (b : Byte) : (m.set a b).get? a = some b := by
  induction m with
  | nil => simp [Memory.set, Memory.get?]
  | cons cell m ih =>
    obtain ⟨x, v⟩ := cell
    simp only [Memory.set]
    split
    · simp [Memory.get?]
    · split
      · simp [Memory.get?]
      · rw [Memory.get?, if_neg (by omega), ih]

theorem Memory.get?_set_other (m : Memory) {a c : Nat} (h : c ≠ a) (b : Byte) : (m.set a b).get? c = m.get? c := by
  induction m with
  | nil => simp [Memory.set, Memory.get?, Ne.symm h]
  | cons cell m ih =>
    obtain ⟨x, v⟩ := cell
    simp only [Memory.set]
    split
    · simp [Memory.get?, Ne.symm h]
    · split
      · rename_i _ e
        subst e
        simp [Memory.get?, Ne.symm h]
      · simp only [Memory.get?, ih]

/-- What `wf` says of a cons: its offset is below every later one, head first. -/
theorem Memory.wf_cons (x : Nat) (v : Byte) (m : Memory) :
    Memory.wf ((x, v) :: m) = true ↔ (∀ cell ∈ m.head?, x < cell.1) ∧ m.wf = true := by
  cases m with
  | nil => simp [Memory.wf]
  | cons cell m => obtain ⟨y, w⟩ := cell; simp [Memory.wf]

theorem Memory.head?_set (m : Memory) (a : Nat) (b : Byte) :
    ∀ cell ∈ (m.set a b).head?, cell.1 = a ∨ ∃ c ∈ m.head?, c.1 = cell.1 := by
  cases m with
  | nil => simp [Memory.set]
  | cons cell m =>
    obtain ⟨x, v⟩ := cell
    simp only [Memory.set]
    split
    · simp
    · split <;> simp

/-- Every write keeps the canonical form. -/
theorem Memory.wf_set (m : Memory) (a : Nat) (b : Byte) (h : m.wf = true) : (m.set a b).wf = true := by
  induction m with
  | nil => rfl
  | cons cell m ih =>
    obtain ⟨x, v⟩ := cell
    have hm := (Memory.wf_cons x v m).mp h
    simp only [Memory.set]
    split
    · rw [Memory.wf_cons]
      exact ⟨by simpa using ‹a < x›, h⟩
    · split
      · rename_i _ e
        subst e
        exact (Memory.wf_cons a b m).mpr hm
      · rw [Memory.wf_cons]
        refine ⟨fun cell hc => ?_, ih hm.2⟩
        rcases Memory.head?_set m a b cell hc with e | ⟨c, hc', e⟩
        · omega
        · have := hm.1 c hc'
          omega

/-- A write inside a space keeps every listed offset inside it. -/
theorem Memory.below_set (m : Memory) {a n : Nat} (b : Byte) (ha : a < n) (h : m.below n = true) :
    (m.set a b).below n = true := by
  induction m with
  | nil => simpa [Memory.set, Memory.below] using ha
  | cons cell m ih =>
    obtain ⟨x, v⟩ := cell
    simp only [Memory.below, List.all_cons, Bool.and_eq_true, decide_eq_true_eq] at h ih ⊢
    simp only [Memory.set]
    split
    · simp [ha, h]
    · split <;> simp [ha, h, ih h.2]

@[simp] theorem State.outByte_putOut_same (s : State) (a : Nat) (b : Byte) : (s.putOut a b).outByte a = b := by
  simp [State.outByte, Memory.get?_set_same]

theorem State.outByte_putOut_other (s : State) {a c : Nat} (h : c ≠ a) (b : Byte) :
    (s.putOut a b).outByte c = s.outByte c := by
  simp [State.outByte, Memory.get?_set_other _ h]

@[simp] theorem State.inByte_putIn_same (s : State) (a : Nat) (b : Byte) : (s.putIn a b).inByte a = b := by
  simp [State.inByte, Memory.get?_set_same]

theorem State.inByte_putIn_other (s : State) {a c : Nat} (h : c ≠ a) (b : Byte) :
    (s.putIn a b).inByte c = s.inByte c := by
  simp [State.inByte, Memory.get?_set_other _ h]

theorem State.inMem_wf_putIn (s : State) (a : Nat) (b : Byte) (h : s.inMem.wf = true) : (s.putIn a b).inMem.wf = true :=
  Memory.wf_set _ _ _ h

theorem State.outMem_wf_putOut (s : State) (a : Nat) (b : Byte) (h : s.outMem.wf = true) : (s.putOut a b).outMem.wf = true :=
  Memory.wf_set _ _ _ h

/-- The memories of the reset state have the canonical form. -/
theorem State.reset_memories_wf : State.reset.inMem.wf = true ∧ State.reset.outMem.wf = true := ⟨rfl, rfl⟩

end Sys2Proof.Machine
end

