-- ==== Sys2Proof/Laws/Engine.lean ====
section
/-! SUPPORT. What each shared engine operation does, in closed form: the access primitives, a run of sample writes, the
block header, a run of nibble expansions. Later proofs cite these and do not unfold the loops. -/

namespace Sys2Proof.Machine

@[simp] theorem Engine.andThen_ok {α β : Type} (a : α) (s : State) (f : α → State → Engine β) :
    (Engine.ok a s).andThen f = f a s := rfl

@[simp] theorem Engine.andThen_raise {α β : Type} (e : BlockFault) (s : State) (f : α → State → Engine β) :
    (Engine.raise e s : Engine α).andThen f = .raise e s := rfl

theorem memRead1_inside {off : Nat} {s : State} (h : off + 1 ≤ s.inCap) : memRead1 off s = .ok (s.inByte off) s := by
  simp [memRead1, h]

theorem memRead2_inside {off : Nat} {s : State} (h : off + 2 ≤ s.inCap) :
    memRead2 off s = .ok (halfOfBytes (s.inByte off) (s.inByte (off + 1))) s := by
  simp [memRead2, h]

/-- Both bytes of a sample, low byte first. -/
def State.putHalf (s : State) (off : Nat) (v : Half) : State :=
  (s.putOut off (lowByte v)).putOut (off + 1) (highByte v)

/-- A run of samples from an offset on. -/
def State.putHalves (s : State) : (off : Nat) → List Half → State
  | _, [] => s
  | off, v :: vs => (s.putHalf off v).putHalves (off + 2) vs

theorem memWrite2_fits {off : Nat} {s : State} (v : Half) (h : off + 2 ≤ s.outCap) :
    memWrite2 off v s = .ok () (s.putHalf off v) := by
  simp [memWrite2, State.putHalf, Nat.not_lt.mpr h]

theorem memWrite2_overflow {off : Nat} {s : State} (v : Half) (h : s.outCap < off + 2) :
    memWrite2 off v s = .raise (.outputOverflow off) s := by
  simp [memWrite2, h]

/-- A run of sample writes changes OUT only. -/
theorem State.putHalves_frame (s : State) (off : Nat) (vs : List Half) :
    s.putHalves off vs = { s with outMem := (s.putHalves off vs).outMem } := by
  induction vs generalizing s off with
  | nil => rfl
  | cons v vs ih => rw [State.putHalves, ih]; rfl

@[simp] theorem State.inByte_putHalf (s : State) (off : Nat) (v : Half) (a : Nat) :
    (s.putHalf off v).inByte a = s.inByte a := rfl
@[simp] theorem State.inCap_putHalf (s : State) (off : Nat) (v : Half) : (s.putHalf off v).inCap = s.inCap := rfl
@[simp] theorem State.outCap_putHalf (s : State) (off : Nat) (v : Half) : (s.putHalf off v).outCap = s.outCap := rfl
@[simp] theorem State.ch_putHalf (s : State) (off : Nat) (v : Half) (c : Chan) : (s.putHalf off v).ch c = s.ch c := by
  cases c <;> rfl

@[simp] theorem State.inByte_putHalves (s : State) (off : Nat) (vs : List Half) (a : Nat) :
    (s.putHalves off vs).inByte a = s.inByte a := by rw [State.putHalves_frame]; rfl
@[simp] theorem State.inCap_putHalves (s : State) (off : Nat) (vs : List Half) :
    (s.putHalves off vs).inCap = s.inCap := by rw [State.putHalves_frame]; rfl
@[simp] theorem State.outCap_putHalves (s : State) (off : Nat) (vs : List Half) :
    (s.putHalves off vs).outCap = s.outCap := by rw [State.putHalves_frame]; rfl
@[simp] theorem State.ch_putHalves (s : State) (off : Nat) (vs : List Half) (c : Chan) :
    (s.putHalves off vs).ch c = s.ch c := by rw [State.putHalves_frame]; cases c <;> rfl

theorem State.outByte_putHalf_other (s : State) (off : Nat) (v : Half) {a : Nat} (h : a < off ∨ off + 2 ≤ a) :
    (s.putHalf off v).outByte a = s.outByte a := by
  rw [State.putHalf, State.outByte_putOut_other _ (by omega), State.outByte_putOut_other _ (by omega)]

/-- A run of samples leaves every byte outside it as it was. -/
theorem State.outByte_putHalves_other (s : State) (off : Nat) (vs : List Half) {a : Nat}
    (h : a < off ∨ off + 2 * vs.length ≤ a) : (s.putHalves off vs).outByte a = s.outByte a := by
  induction vs generalizing s off with
  | nil => rfl
  | cons v vs ih =>
    simp only [List.length_cons] at h
    rw [State.putHalves, ih _ _ (by omega), State.outByte_putHalf_other _ _ _ (by omega)]

/-- OUT holds a run of samples that has been written. -/
theorem State.outHolds_putHalves (s : State) (off : Nat) (vs : List Half) : OutHolds (s.putHalves off vs) off vs := by
  induction vs generalizing s off with
  | nil => intro i h; simp at h
  | cons v vs ih =>
    intro i h
    cases i with
    | zero =>
      simp only [State.putHalves, Nat.mul_zero, Nat.add_zero, List.getElem_cons_zero]
      constructor
      · rw [State.outByte_putHalves_other _ _ _ (by omega), State.putHalf,
          State.outByte_putOut_other _ (by omega), State.outByte_putOut_same]
      · rw [State.outByte_putHalves_other _ _ _ (by omega), State.putHalf, State.outByte_putOut_same]
    | succ i =>
      simp only [List.length_cons] at h
      have := ih (s.putHalf off v) (off + 2) i (by omega)
      simp only [State.putHalves, List.getElem_cons_succ]
      rw [show off + 2 * (i + 1) = off + 2 + 2 * i by omega]
      exact this

theorem State.putHalves_append (s : State) (off : Nat) (us vs : List Half) :
    s.putHalves off (us ++ vs) = (s.putHalves off us).putHalves (off + 2 * us.length) vs := by
  induction us generalizing s off with
  | nil => rfl
  | cons u us ih =>
    simp only [List.cons_append, State.putHalves, List.length_cons]
    rw [ih, show off + 2 + 2 * us.length = off + 2 * (us.length + 1) by omega]

/-- Writing samples one after another from an offset on, until one does not fit. -/
def emitAll : List Half → (off : Nat) → State → Engine Nat
  | [], off, s => .ok off s
  | v :: vs, off, s => (emit v off s).andThen fun off s => emitAll vs off s

theorem emit_fits {off : Nat} {s : State} (v : Half) (h : off + 2 ≤ s.outCap) :
    emit v off s = .ok (off + 2) (s.putHalf off v) := by
  simp [emit, memWrite2_fits v h]

theorem emit_overflow {off : Nat} {s : State} (v : Half) (h : s.outCap < off + 2) :
    emit v off s = .raise (.outputOverflow off) s := by
  simp [emit, memWrite2_overflow v h]

theorem emitAll_fits (vs : List Half) (off : Nat) (s : State) (h : off + 2 * vs.length ≤ s.outCap) :
    emitAll vs off s = .ok (off + 2 * vs.length) (s.putHalves off vs) := by
  induction vs generalizing off s with
  | nil => rfl
  | cons v vs ih =>
    simp only [List.length_cons] at h ⊢
    rw [emitAll, emit_fits v (by omega), Engine.andThen_ok, ih _ _ (by simpa using by omega)]
    rw [show off + 2 + 2 * vs.length = off + 2 * (vs.length + 1) by omega]
    rfl

/-- A run of samples that does not fit: as many as fit are written, and the fault carries the offset of the next. -/
theorem emitAll_overflow (vs : List Half) (off : Nat) (s : State) (hne : 0 < vs.length)
    (h : s.outCap < off + 2 * vs.length) :
    emitAll vs off s = .raise (.outputOverflow (off + 2 * ((s.outCap - off) / 2)))
      (s.putHalves off (vs.take ((s.outCap - off) / 2))) := by
  induction vs generalizing off s with
  | nil => simp at hne
  | cons v vs ih =>
    simp only [List.length_cons] at h
    by_cases hv : off + 2 ≤ s.outCap
    · rw [emitAll, emit_fits v hv, Engine.andThen_ok, ih _ _ (by omega) (by simpa using by omega)]
      simp only [State.outCap_putHalf]
      have e : (s.outCap - off) / 2 = (s.outCap - (off + 2)) / 2 + 1 := by omega
      rw [e, List.take_succ_cons, State.putHalves]
      congr 2
      omega
    · have e : (s.outCap - off) / 2 = 0 := by omega
      rw [emitAll, emit_overflow v (by omega), e]
      rfl

theorem emitAll_append (us vs : List Half) (off : Nat) (s : State) :
    emitAll (us ++ vs) off s = (emitAll us off s).andThen fun off s => emitAll vs off s := by
  induction us generalizing off s with
  | nil => rfl
  | cons u us ih =>
    simp only [List.cons_append, emitAll]
    cases emit u off s <;> simp [Engine.andThen, ih]

/-- The A-law loop is a run of sample writes (R102, R104). -/
theorem alawLoop_eq (n i : Nat) (s : State) (h : i + n ≤ s.inCap) :
    alawLoop n i s = emitAll ((List.range' i n).map fun j => alawExpand (s.inByte j)) (2 * i) s := by
  induction n generalizing i s with
  | zero => rfl
  | succ n ih =>
    rw [alawLoop, memRead1_inside (by omega), Engine.andThen_ok]
    simp only [List.range'_succ, List.map_cons, emitAll, emit]
    by_cases hv : 2 * i + 2 ≤ s.outCap
    · rw [memWrite2_fits _ hv, Engine.andThen_ok, Engine.andThen_ok, Engine.andThen_ok, ih _ _ (by simpa using by omega)]
      rfl
    · rw [memWrite2_overflow _ (by omega)]
      rfl

/-- A run of bytes from an offset on. -/
def State.putBytes (s : State) : (off : Nat) → List Byte → State
  | _, [] => s
  | off, b :: bs => (s.putOut off b).putBytes (off + 1) bs

theorem State.putBytes_frame (s : State) (off : Nat) (bs : List Byte) :
    s.putBytes off bs = { s with outMem := (s.putBytes off bs).outMem } := by
  induction bs generalizing s off with
  | nil => rfl
  | cons b bs ih => rw [State.putBytes, ih]; rfl

theorem State.outByte_putBytes_other (s : State) (off : Nat) (bs : List Byte) {a : Nat}
    (h : a < off ∨ off + bs.length ≤ a) : (s.putBytes off bs).outByte a = s.outByte a := by
  induction bs generalizing s off with
  | nil => rfl
  | cons b bs ih =>
    simp only [List.length_cons] at h
    rw [State.putBytes, ih _ _ (by omega), State.outByte_putOut_other _ (by omega)]

theorem State.outByte_putBytes_at (s : State) (off : Nat) (bs : List Byte) (i : Nat) (h : i < bs.length) :
    (s.putBytes off bs).outByte (off + i) = bs[i] := by
  induction bs generalizing s off i with
  | nil => simp at h
  | cons b bs ih =>
    cases i with
    | zero => rw [State.putBytes, State.outByte_putBytes_other _ _ _ (by omega)]; simp
    | succ i =>
      simp only [List.length_cons] at h
      rw [State.putBytes, show off + (i + 1) = off + 1 + i by omega, ih _ _ _ (by omega)]
      rfl

theorem passLoop_fits (n i : Nat) (s : State) (hi : i + n ≤ s.inCap) (ho : i + n ≤ s.outCap) :
    passLoop n i s = .ok (i + n) (s.putBytes i ((List.range' i n).map s.inByte)) := by
  induction n generalizing i s with
  | zero => rfl
  | succ n ih =>
    rw [passLoop, memRead1_inside (by omega), Engine.andThen_ok]
    have w : memWrite1 i (s.inByte i) s = .ok () (s.putOut i (s.inByte i)) := by
      simp [memWrite1, show ¬ s.outCap < i + 1 by omega]
    rw [w, Engine.andThen_ok, ih _ _ (by simpa using by omega) (by simpa using by omega)]
    simp only [List.range'_succ, List.map_cons, State.putBytes]
    rw [show i + 1 + n = i + (n + 1) by omega]
    rfl

theorem passLoop_overflow (n i : Nat) (s : State) (hi : i + n ≤ s.inCap) (hl : i ≤ s.outCap) (ho : s.outCap < i + n) :
    passLoop n i s = .raise (.outputOverflow s.outCap)
      (s.putBytes i ((List.range' i (s.outCap - i)).map s.inByte)) := by
  induction n generalizing i s with
  | zero => omega
  | succ n ih =>
    rw [passLoop, memRead1_inside (by omega), Engine.andThen_ok]
    by_cases hc : i + 1 ≤ s.outCap
    · have w : memWrite1 i (s.inByte i) s = .ok () (s.putOut i (s.inByte i)) := by
        simp [memWrite1, show ¬ s.outCap < i + 1 by omega]
      rw [w, Engine.andThen_ok, ih _ _ (by simpa using by omega) (by simpa using hc) (by simpa using by omega)]
      rw [show s.outCap - i = s.outCap - (i + 1) + 1 by omega]
      simp only [List.range'_succ, List.map_cons, State.putBytes, State.outCap_putOut]
      rfl
    · have e : s.outCap = i := by omega
      simp [memWrite1, e, State.putBytes]

/-- What loading a block header leaves, whatever the predictor sets held before (R116 steps 4 to 7, R39). -/
def State.headerLoaded (s : State) (stereo : Bool) (p : Nat) : State :=
  { s with
    status := s.status ||| flagIf (headerClamps (s.blockAt p) stereo) .predclamp
    ch0 := headerSet (s.blockAt p) stereo 0
    ch1 := if stereo then headerSet (s.blockAt p) stereo 1 else s.ch1 }

theorem loadHeader_eq (stereo : Bool) (p : Nat) (s : State) (h : p + headerSize stereo ≤ s.inCap) :
    loadHeader (channelList stereo) p s = .ok (p + headerSize stereo) (s.headerLoaded stereo p) := by
  cases stereo with
  | false =>
    simp only [headerSize, Bool.false_eq_true, if_false] at h
    have hs : ∀ v s, (selectCoeff .ch0 v s).inCap = s.inCap := by
      intro v s; simp only [selectCoeff]; split <;> simp
    have hb : ∀ v s a, (selectCoeff .ch0 v s).inByte a = s.inByte a := by
      intro v s a; simp only [selectCoeff]; split <;> simp
    simp only [loadHeader, channelList, Bool.false_eq_true, if_false, loadPredictors, loadDeltas, loadSample1s, loadSample2s]
    rw [memRead1_inside (by omega), Engine.andThen_ok, Engine.andThen_ok,
      memRead2_inside (by simp only [hs]; omega), Engine.andThen_ok, Engine.andThen_ok,
      memRead2_inside (by simp [hs]; omega), Engine.andThen_ok, Engine.andThen_ok,
      memRead2_inside (by simp [hs]; omega), Engine.andThen_ok]
    simp only [hb, State.inByte_setCh]
    congr 1
    by_cases hv : (s.inByte p).toNat > 6 <;>
      simp [hv, selectCoeff, State.headerLoaded, headerSet, headerClamps, flagIf, State.setCh, State.ch, State.setFlag, fieldAt,
        State.blockAt, channelCount, Nat.add_assoc]
  | true =>
    simp only [headerSize, if_true] at h
    have hs : ∀ c v s, (selectCoeff c v s).inCap = s.inCap := by
      intro c v s; simp only [selectCoeff]; split <;> simp
    have hb : ∀ c v s a, (selectCoeff c v s).inByte a = s.inByte a := by
      intro c v s a; simp only [selectCoeff]; split <;> simp
    simp only [loadHeader, channelList, if_true, loadPredictors, loadDeltas, loadSample1s, loadSample2s]
    rw [memRead1_inside (by omega), Engine.andThen_ok,
      memRead1_inside (by simp only [hs]; omega), Engine.andThen_ok, Engine.andThen_ok,
      memRead2_inside (by simp only [hs]; omega), Engine.andThen_ok,
      memRead2_inside (by simp [hs]; omega), Engine.andThen_ok, Engine.andThen_ok,
      memRead2_inside (by simp [hs]; omega), Engine.andThen_ok,
      memRead2_inside (by simp [hs]; omega), Engine.andThen_ok, Engine.andThen_ok,
      memRead2_inside (by simp [hs]; omega), Engine.andThen_ok,
      memRead2_inside (by simp [hs]; omega), Engine.andThen_ok]
    simp only [hb, State.inByte_setCh]
    congr 1
    by_cases hv : (s.inByte p).toNat > 6 <;> by_cases hw : (s.inByte (p + 1)).toNat > 6 <;>
      simp [hv, hw, selectCoeff, State.headerLoaded, headerSet, headerClamps, flagIf, State.setCh, State.ch, State.setFlag, fieldAt,
        State.blockAt, channelCount, Nat.add_assoc, BitVec.or_assoc]

/-- Writing the seeds is a run of sample writes, in the order of R117. -/
theorem emitSeeds_eq (stereo : Bool) (off : Nat) (s : State) :
    ((emitSample1s (channelList stereo) off s).andThen fun off s => emitSample2s (channelList stereo) off s) =
      emitAll (if stereo then [s.ch0.sample1, s.ch1.sample1, s.ch0.sample2, s.ch1.sample2]
        else [s.ch0.sample1, s.ch0.sample2]) off s := by
  have key : ∀ (v : Half) (off : Nat) (s : State) (f g : Nat → State → Engine Nat),
      (f (off + 2) (s.putHalf off v) = g (off + 2) (s.putHalf off v)) →
      (emit v off s).andThen f = (emit v off s).andThen g := by
    intro v off s f g h
    by_cases hv : off + 2 ≤ s.outCap
    · simp only [emit_fits v hv, Engine.andThen_ok, h]
    · simp only [emit_overflow v (Nat.lt_of_not_le hv), Engine.andThen_raise]
  have assoc : ∀ (x : Engine Nat) (f g : Nat → State → Engine Nat),
      (x.andThen f).andThen g = x.andThen fun a s => (f a s).andThen g := by
    intro x f g; cases x <;> rfl
  cases stereo with
  | false =>
    simp only [channelList, Bool.false_eq_true, if_false, emitSample1s, emitSample2s, emitAll, assoc, Engine.andThen_ok]
    exact key _ _ _ _ _ rfl
  | true =>
    simp only [channelList, if_true, emitSample1s, emitSample2s, emitAll, assoc, Engine.andThen_ok]
    refine key _ _ _ _ _ ?_
    refine key _ _ _ _ _ ?_
    refine key _ _ _ _ _ ?_
    exact key _ _ _ _ _ rfl

/-- Expanding and writing codes one after another, until a sample does not fit. -/
def emitCodes : List (Chan × Nibble) → (off : Nat) → State → Engine Nat
  | [], off, s => .ok off s
  | (c, n) :: cs, off, s => (emitNibble c n off s).andThen fun off s => emitCodes cs off s

/-- The state with both predictor sets replaced. -/
def State.withSets (s : State) (pq : Predictor × Predictor) : State := { s with ch0 := pq.1, ch1 := pq.2 }

theorem emitNibble_fits {c : Chan} {n : Nibble} {off : Nat} {s : State} (h : off + 2 ≤ s.outCap) :
    emitNibble c n off s =
      .ok (off + 2) ((s.setCh c (expandNibble (s.ch c) n).2).putHalf off (expandNibble (s.ch c) n).1) := by
  rw [emitNibble, if_neg (by omega), emit_fits]
  · rfl
  · simpa [nibbleExpand] using h

theorem emitNibble_overflow {c : Chan} {n : Nibble} {off : Nat} {s : State} (h : s.outCap < off + 2) :
    emitNibble c n off s = .raise (.outputOverflow off) s := by
  rw [emitNibble, if_pos h]

theorem emitCodes_fits (cs : List (Chan × Nibble)) (off : Nat) (s : State) (h : off + 2 * cs.length ≤ s.outCap) :
    emitCodes cs off s = .ok (off + 2 * cs.length)
      ((s.withSets (playSets cs s.ch0 s.ch1)).putHalves off (playSamples cs s.ch0 s.ch1)) := by
  induction cs generalizing off s with
  | nil => rfl
  | cons cn cs ih =>
    obtain ⟨c, n⟩ := cn
    simp only [List.length_cons] at h ⊢
    rw [emitCodes, emitNibble_fits (by omega), Engine.andThen_ok, ih _ _ (by simpa using by omega)]
    rw [show off + 2 + 2 * cs.length = off + 2 * (cs.length + 1) by omega]
    cases c <;> rfl

theorem emitCodes_overflow (cs : List (Chan × Nibble)) (off : Nat) (s : State) (hne : 0 < cs.length)
    (h : s.outCap < off + 2 * cs.length) :
    emitCodes cs off s = .raise (.outputOverflow (off + 2 * ((s.outCap - off) / 2)))
      ((s.withSets (playSets (cs.take ((s.outCap - off) / 2)) s.ch0 s.ch1)).putHalves off
        (playSamples (cs.take ((s.outCap - off) / 2)) s.ch0 s.ch1)) := by
  induction cs generalizing off s with
  | nil => simp at hne
  | cons cn cs ih =>
    obtain ⟨c, n⟩ := cn
    simp only [List.length_cons] at h
    by_cases hv : off + 2 ≤ s.outCap
    · rw [emitCodes, emitNibble_fits hv, Engine.andThen_ok, ih _ _ (by omega) (by simpa using by omega)]
      simp only [State.outCap_putHalf, State.outCap_setCh]
      have e : (s.outCap - off) / 2 = (s.outCap - (off + 2)) / 2 + 1 := by omega
      rw [e, List.take_succ_cons]
      have e' : off + 2 + 2 * ((s.outCap - (off + 2)) / 2) = off + 2 * ((s.outCap - (off + 2)) / 2 + 1) := by omega
      rw [e']
      cases c <;> rfl
    · have e : (s.outCap - off) / 2 = 0 := by omega
      rw [emitCodes, emitNibble_overflow (by omega), e]
      rfl

theorem emitNibble_inCap {c : Chan} {n : Nibble} {off : Nat} {s t : State} {o : Nat}
    (h : emitNibble c n off s = .ok o t) : t.inCap = s.inCap ∧ ∀ a, t.inByte a = s.inByte a := by
  by_cases hv : off + 2 ≤ s.outCap
  · rw [emitNibble_fits hv] at h
    cases h
    simp
  · rw [emitNibble_overflow (by omega)] at h
    cases h

/-- The codes of data bytes depend on those bytes alone. -/
theorem dataCodes_congr {rd rd' : Nat → Byte} (h : ∀ a, rd a = rd' a) (stereo : Bool) (n j : Nat) :
    dataCodes rd stereo n j = dataCodes rd' stereo n j := by
  rw [show rd = rd' from funext h]

/-- The data loop is a run of nibble expansions (R118). -/
theorem dataLoop_eq (stereo : Bool) (n p off : Nat) (s : State) (h : p + n ≤ s.inCap) :
    dataLoop stereo n p off s = emitCodes (dataCodes s.inByte stereo n p) off s := by
  induction n generalizing p off s with
  | zero => rfl
  | succ n ih =>
    rw [dataLoop, memRead1_inside (by omega), Engine.andThen_ok]
    simp only [dataCodes, emitCodes]
    cases h1 : emitNibble .ch0 (highNibble (s.inByte p)) off s with
    | raise e t => rfl
    | refuse r => rfl
    | ok o t =>
      simp only [Engine.andThen_ok]
      have f1 := emitNibble_inCap h1
      cases h2 : emitNibble (if stereo then .ch1 else .ch0) (lowNibble (s.inByte p)) o t with
      | raise e u => rfl
      | refuse r => rfl
      | ok o' u =>
        simp only [Engine.andThen_ok]
        have f2 := emitNibble_inCap h2
        rw [ih _ _ _ (by omega), dataCodes_congr (fun a => (f2.2 a).trans (f1.2 a))]

theorem dataCodes_length (rd : Nat → Byte) (stereo : Bool) (n j : Nat) : (dataCodes rd stereo n j).length = 2 * n := by
  induction n generalizing j with
  | zero => rfl
  | succ n ih => simp only [dataCodes, List.length_cons, ih]; omega

theorem playSamples_length (cs : List (Chan × Nibble)) (p q : Predictor) : (playSamples cs p q).length = cs.length := by
  induction cs generalizing p q with
  | nil => rfl
  | cons cn cs ih => obtain ⟨c, n⟩ := cn; cases c <;> simp [playSamples, ih]

theorem playSamples_take (cs : List (Chan × Nibble)) (k : Nat) (p q : Predictor) :
    playSamples (cs.take k) p q = (playSamples cs p q).take k := by
  induction cs generalizing k p q with
  | nil => simp [playSamples]
  | cons cn cs ih =>
    obtain ⟨c, n⟩ := cn
    cases k with
    | zero => cases c <;> simp [playSamples]
    | succ k => cases c <;> simp [playSamples, ih]

theorem seedSamples_length (rd : Nat → Byte) (stereo : Bool) : (seedSamples rd stereo).length = 2 * channelCount stereo := by
  cases stereo <;> rfl

/-- How many samples a block of bs bytes holds (R119). -/
theorem blockSamples_length (rd : Nat → Byte) (stereo : Bool) (bs : Nat) (h : headerSize stereo ≤ bs) :
    2 * (blockSamples rd stereo bs).length = blockOutput stereo bs := by
  simp only [blockSamples, List.length_append, playSamples_length, blockCodes, dataCodes_length, seedSamples_length,
    blockOutput]
  cases stereo <;> simp [headerSize, channelCount] at * <;> omega

theorem dataCodes_shift (rd : Nat → Byte) (p : Nat) (stereo : Bool) (n j : Nat) :
    dataCodes rd stereo n (p + j) = dataCodes (fun a => rd (p + a)) stereo n j := by
  induction n generalizing j with
  | zero => rfl
  | succ n ih => simp only [dataCodes]; rw [Nat.add_assoc, ih]

/-- In a mono block channel 1's set is read by no code, whatever it is. -/
theorem playSamples_mono (rd : Nat → Byte) (n j : Nat) (p q q' : Predictor) :
    playSamples (dataCodes rd false n j) p q = playSamples (dataCodes rd false n j) p q' := by
  induction n generalizing j p with
  | zero => rfl
  | succ n ih => simp only [dataCodes, playSamples, Bool.false_eq_true, if_false]; rw [ih]

theorem State.withSets_putHalves (u : State) (pq : Predictor × Predictor) (off : Nat) (vs : List Half) :
    (u.putHalves off vs).withSets pq = (u.withSets pq).putHalves off vs := by
  induction vs generalizing u off with
  | nil => rfl
  | cons v vs ih => simp only [State.putHalves]; rw [ih]; rfl

/-- A prefix of a mono block's codes reads channel 1's set nowhere either. -/
theorem playSamples_take_mono (rd : Nat → Byte) (n j k : Nat) (p q q' : Predictor) :
    playSamples ((dataCodes rd false n j).take k) p q = playSamples ((dataCodes rd false n j).take k) p q' := by
  rw [playSamples_take, playSamples_take, playSamples_mono rd n j p q q']

/-- The state a block decode reaches when k samples of it are written. -/
def State.blockReached (s : State) (inOff bs outOff k : Nat) : State :=
  (((s.headerLoaded (isStereo s) inOff).withSets
      (blockSets (s.blockAt inOff) (isStereo s) bs k s.ch1)).putHalves outOff
    ((blockSamples (s.blockAt inOff) (isStereo s) bs).take k))

theorem decodeBody_run (inOff bs outOff : Nat) (s : State) (hb : headerSize (isStereo s) ≤ bs)
    (hi : inOff + bs ≤ s.inCap) :
    decodeBody inOff bs outOff s =
      (emitAll (seedSamples (s.blockAt inOff) (isStereo s)) outOff (s.headerLoaded (isStereo s) inOff)).andThen
        fun off u => emitCodes (blockCodes (s.blockAt inOff) (isStereo s) bs) off u := by
  have assoc : ∀ (x : Engine Nat) (f g : Nat → State → Engine Nat),
      (x.andThen f).andThen g = x.andThen fun a s => (f a s).andThen g := by
    intro x f g; cases x <;> rfl
  have seeds : (if isStereo s then
        [(s.headerLoaded (isStereo s) inOff).ch0.sample1, (s.headerLoaded (isStereo s) inOff).ch1.sample1,
          (s.headerLoaded (isStereo s) inOff).ch0.sample2, (s.headerLoaded (isStereo s) inOff).ch1.sample2]
      else [(s.headerLoaded (isStereo s) inOff).ch0.sample1, (s.headerLoaded (isStereo s) inOff).ch0.sample2])
      = seedSamples (s.blockAt inOff) (isStereo s) := by
    cases h : isStereo s <;> simp [State.headerLoaded, seedSamples]
  rw [decodeBody, loadHeader_eq _ _ _ (by omega), Engine.andThen_ok, ← assoc, emitSeeds_eq, seeds]
  have key : ∀ (vs : List Half) (u : State), 0 < vs.length → u.inCap = s.inCap → (∀ a, u.inByte a = s.inByte a) → ∀ off,
      ((emitAll vs off u).andThen fun off s_1 =>
        dataLoop (isStereo s) (bs - headerSize (isStereo s)) (inOff + headerSize (isStereo s)) off s_1) =
      (emitAll vs off u).andThen fun off u => emitCodes (blockCodes (s.blockAt inOff) (isStereo s) bs) off u := by
    intro vs u hne hc hm off
    by_cases hf : off + 2 * vs.length ≤ u.outCap
    · rw [emitAll_fits _ _ _ hf, Engine.andThen_ok, Engine.andThen_ok, dataLoop_eq _ _ _ _ _ (by simp only [State.inCap_putHalves]; omega),
        dataCodes_congr (rd' := s.inByte) (by intro a; simp [hm]), dataCodes_shift]
      rfl
    · rw [emitAll_overflow _ _ _ hne (by omega)]
      rfl
  exact key _ _ (by cases isStereo s <;> simp [seedSamples]) (by rfl) (by intro a; rfl) _

/-- A block that fits (R116, R119). -/
theorem decodeBody_fits (inOff bs outOff : Nat) (s : State) (hb : headerSize (isStereo s) ≤ bs)
    (hi : inOff + bs ≤ s.inCap) (ho : outOff + blockOutput (isStereo s) bs ≤ s.outCap) :
    decodeBody inOff bs outOff s = .ok (outOff + blockOutput (isStereo s) bs)
      (s.blockReached inOff bs outOff (2 * bs)) := by
  have hl := blockSamples_length (s.blockAt inOff) (isStereo s) bs hb
  have hs := seedSamples_length (s.blockAt inOff) (isStereo s)
  have hc : (blockCodes (s.blockAt inOff) (isStereo s) bs).length = 2 * (bs - headerSize (isStereo s)) :=
    dataCodes_length _ _ _ _
  have hlen : (blockSamples (s.blockAt inOff) (isStereo s) bs).length =
      2 * channelCount (isStereo s) + 2 * (bs - headerSize (isStereo s)) := by
    simp only [blockSamples, List.length_append, playSamples_length, hc, hs]
  have hn : headerSize (isStereo s) = 7 * channelCount (isStereo s) := by cases isStereo s <;> rfl
  have cap : ∀ st p, (s.headerLoaded st p).outCap = s.outCap := fun _ _ => rfl
  rw [decodeBody_run _ _ _ _ hb hi, emitAll_fits _ _ _ (by rw [cap]; omega), Engine.andThen_ok,
    emitCodes_fits _ _ _ (by rw [State.outCap_putHalves, cap]; omega)]
  have e : outOff + 2 * (seedSamples (s.blockAt inOff) (isStereo s)).length +
      2 * (blockCodes (s.blockAt inOff) (isStereo s) bs).length = outOff + blockOutput (isStereo s) bs := by
    omega
  rw [e]
  congr 1
  rw [State.blockReached, List.take_of_length_le (by omega), blockSamples, State.putHalves_append]
  have tk : (blockCodes (s.blockAt inOff) (isStereo s) bs).take (2 * bs - 2 * channelCount (isStereo s)) =
      blockCodes (s.blockAt inOff) (isStereo s) bs := List.take_of_length_le (by omega)
  rw [State.withSets_putHalves]
  have c0 : ∀ off vs, ((s.headerLoaded (isStereo s) inOff).putHalves off vs).ch0 = headerSet (s.blockAt inOff) (isStereo s) 0 := by
    intro off vs; rw [State.putHalves_frame]; rfl
  have c1 : ∀ off vs, ((s.headerLoaded (isStereo s) inOff).putHalves off vs).ch1 =
      if isStereo s then headerSet (s.blockAt inOff) (isStereo s) 1 else s.ch1 := by
    intro off vs; rw [State.putHalves_frame]; rfl
  rw [c0, c1, blockSets, tk]
  cases hst : isStereo s with
  | true => rfl
  | false =>
    simp only [Bool.false_eq_true, if_false]
    congr 1
    exact playSamples_mono _ _ _ _ _ _

/-- A block that does not fit (R174): the samples that fit are written, the predictor sets are those after the last sample
written, and the fault carries the offset of the sample that did not fit. -/
theorem decodeBody_overflow (inOff bs outOff : Nat) (s : State) (hb : headerSize (isStereo s) ≤ bs)
    (hi : inOff + bs ≤ s.inCap) (ho : s.outCap < outOff + blockOutput (isStereo s) bs) :
    decodeBody inOff bs outOff s = .raise (.outputOverflow (outOff + 2 * ((s.outCap - outOff) / 2)))
      (s.blockReached inOff bs outOff ((s.outCap - outOff) / 2)) := by
  have hl := blockSamples_length (s.blockAt inOff) (isStereo s) bs hb
  have hs := seedSamples_length (s.blockAt inOff) (isStereo s)
  have hc : (blockCodes (s.blockAt inOff) (isStereo s) bs).length = 2 * (bs - headerSize (isStereo s)) :=
    dataCodes_length _ _ _ _
  have hlen : (blockSamples (s.blockAt inOff) (isStereo s) bs).length =
      2 * channelCount (isStereo s) + 2 * (bs - headerSize (isStereo s)) := by
    simp only [blockSamples, List.length_append, playSamples_length, hc, hs]
  have hp : 0 < channelCount (isStereo s) := by cases isStereo s <;> decide
  have cap : ∀ st p, (s.headerLoaded st p).outCap = s.outCap := fun _ _ => rfl
  rw [decodeBody_run _ _ _ _ hb hi]
  by_cases hf : outOff + 2 * (seedSamples (s.blockAt inOff) (isStereo s)).length ≤ s.outCap
  · rw [emitAll_fits _ _ _ (by rw [cap]; exact hf), Engine.andThen_ok,
      emitCodes_overflow _ _ _ (by omega) (by rw [State.outCap_putHalves, cap]; omega)]
    rw [State.outCap_putHalves, cap]
    have hk : (s.outCap - outOff) / 2 = 2 * channelCount (isStereo s) +
        (s.outCap - (outOff + 2 * (seedSamples (s.blockAt inOff) (isStereo s)).length)) / 2 := by omega
    have e : outOff + 2 * (seedSamples (s.blockAt inOff) (isStereo s)).length +
        2 * ((s.outCap - (outOff + 2 * (seedSamples (s.blockAt inOff) (isStereo s)).length)) / 2) =
        outOff + 2 * ((s.outCap - outOff) / 2) := by omega
    rw [e]
    congr 1
    rw [State.blockReached, State.withSets_putHalves, blockSamples, hk, ← hs, List.take_length_add_append,
      State.putHalves_append, ← playSamples_take]
    have c0 : ∀ off vs, ((s.headerLoaded (isStereo s) inOff).putHalves off vs).ch0 =
        headerSet (s.blockAt inOff) (isStereo s) 0 := by
      intro off vs; rw [State.putHalves_frame]; rfl
    have c1 : ∀ off vs, ((s.headerLoaded (isStereo s) inOff).putHalves off vs).ch1 =
        if isStereo s then headerSet (s.blockAt inOff) (isStereo s) 1 else s.ch1 := by
      intro off vs; rw [State.putHalves_frame]; rfl
    rw [c0, c1, blockSets, ← hs, Nat.add_sub_cancel_left]
    cases hst : isStereo s with
    | true => rfl
    | false =>
      simp only [Bool.false_eq_true, if_false]
      congr 1
      exact playSamples_take_mono _ _ _ _ _ _ _
  · rw [emitAll_overflow _ _ _ (by omega) (by rw [cap]; omega), Engine.andThen_raise, cap]
    congr 1
    rw [State.blockReached, blockSamples, List.take_append_of_le_length (by omega), blockSets,
      show (s.outCap - outOff) / 2 - 2 * channelCount (isStereo s) = 0 by omega]
    cases hst : isStereo s <;> simp [State.withSets, State.headerLoaded, playSets]

end Sys2Proof.Machine
end

