-- ==== Sys2Proof/Laws/Commands.lean ====
section
/-! SUPPORT. What a block decode and the block loop do, in closed form (spec/41_adpcm.md R116, R122): later proofs about the
ADPCM commands cite these and do not unfold the loops. -/

namespace Sys2Proof.Machine

theorem Outcome_next_inj {s t : State} (h : (Host.Outcome.next s : Host.Outcome State Fault Refusal) = .next t) : s = t := by
  cases h; rfl

theorem clampBlock_zero (a : Nat) : clampBlock a 0 = 0 := by simp [clampBlock]

theorem clampBlock_self (a : Nat) : clampBlock a a = a := by simp [clampBlock]

theorem headerSize_pos (stereo : Bool) : 0 < headerSize stereo := by cases stereo <;> decide

theorem headerSize_eq (stereo : Bool) : headerSize stereo = 7 * channelCount stereo := by cases stereo <;> rfl

theorem channelCount_pos (stereo : Bool) : 0 < channelCount stereo := by cases stereo <;> decide

/-- A block with a header gives at least its seeds. -/
theorem blockOutput_pos {stereo : Bool} {bs : Nat} (h : headerSize stereo ≤ bs) : 4 ≤ blockOutput stereo bs := by
  cases stereo <;> simp [headerSize, blockOutput, channelCount] at * <;> omega

/-- Everything `DecodeBlock` can do (R116): skip, refuse the input range, decode a block that fits, overflow. -/
theorem decodeBlock_cases (inOff blockSize outOff : Nat) (s : State) :
    (clampBlock (regNat s.blockAlign) blockSize < headerSize (isStereo s) ∧
      decodeBlock inOff blockSize outOff s = .ok outOff (s.setFlag .blkskip)) ∨
    (headerSize (isStereo s) ≤ clampBlock (regNat s.blockAlign) blockSize ∧
      s.inCap < inOff + clampBlock (regNat s.blockAlign) blockSize ∧
      decodeBlock inOff blockSize outOff s = .raise .inputRange s) ∨
    (headerSize (isStereo s) ≤ clampBlock (regNat s.blockAlign) blockSize ∧
      inOff + clampBlock (regNat s.blockAlign) blockSize ≤ s.inCap ∧
      outOff + blockOutput (isStereo s) (clampBlock (regNat s.blockAlign) blockSize) ≤ s.outCap ∧
      decodeBlock inOff blockSize outOff s =
        .ok (outOff + blockOutput (isStereo s) (clampBlock (regNat s.blockAlign) blockSize))
          (s.blockReached inOff (clampBlock (regNat s.blockAlign) blockSize) outOff
            (2 * clampBlock (regNat s.blockAlign) blockSize))) ∨
    (headerSize (isStereo s) ≤ clampBlock (regNat s.blockAlign) blockSize ∧
      inOff + clampBlock (regNat s.blockAlign) blockSize ≤ s.inCap ∧
      s.outCap < outOff + blockOutput (isStereo s) (clampBlock (regNat s.blockAlign) blockSize) ∧
      decodeBlock inOff blockSize outOff s =
        .raise (.outputOverflow (outOff + 2 * ((s.outCap - outOff) / 2)))
          (s.blockReached inOff (clampBlock (regNat s.blockAlign) blockSize) outOff ((s.outCap - outOff) / 2))) := by
  by_cases h0 : blockSize = 0
  · subst h0
    left
    rw [clampBlock_zero, decodeBlock, if_pos rfl]
    exact ⟨headerSize_pos _, rfl⟩
  rw [decodeBlock, if_neg h0]
  simp only
  by_cases h1 : clampBlock (regNat s.blockAlign) blockSize < headerSize (isStereo s)
  · left; exact ⟨h1, if_pos h1⟩
  right
  rw [if_neg h1]
  by_cases h2 : inOff + clampBlock (regNat s.blockAlign) blockSize > s.inCap
  · left; exact ⟨by omega, h2, if_pos h2⟩
  right
  rw [if_neg h2]
  by_cases h3 : outOff + blockOutput (isStereo s) (clampBlock (regNat s.blockAlign) blockSize) ≤ s.outCap
  · left; exact ⟨by omega, by omega, h3, decodeBody_fits _ _ _ _ (by omega) (by omega) h3⟩
  · right; exact ⟨by omega, by omega, by omega, decodeBody_overflow _ _ _ _ (by omega) (by omega) (by omega)⟩

/-- A decoded block changes STATUS (by PREDCLAMP), the predictor sets and OUT only. -/
theorem State.blockReached_frame (s : State) (inOff bs outOff k : Nat) :
    s.blockReached inOff bs outOff k = { s with
      status := s.status ||| flagIf (headerClamps (s.blockAt inOff) (isStereo s)) .predclamp
      ch0 := (blockSets (s.blockAt inOff) (isStereo s) bs k s.ch1).1
      ch1 := (blockSets (s.blockAt inOff) (isStereo s) bs k s.ch1).2
      outMem := (s.blockReached inOff bs outOff k).outMem } := by
  rw [State.blockReached, State.putHalves_frame]
  rfl

theorem State.inByte_blockReached (s : State) (inOff bs outOff k a : Nat) :
    (s.blockReached inOff bs outOff k).inByte a = s.inByte a := by rw [State.blockReached_frame]; rfl

theorem State.blockAt_blockReached (s : State) (inOff bs outOff k p : Nat) :
    (s.blockReached inOff bs outOff k).blockAt p = s.blockAt p := by
  funext j; simp [State.blockAt, State.inByte_blockReached]

theorem isStereo_blockReached (s : State) (inOff bs outOff k : Nat) :
    isStereo (s.blockReached inOff bs outOff k) = isStereo s := by rw [State.blockReached_frame]; rfl

theorem State.inCap_blockReached (s : State) (inOff bs outOff k : Nat) :
    (s.blockReached inOff bs outOff k).inCap = s.inCap := by rw [State.blockReached_frame]; rfl

theorem State.outCap_blockReached (s : State) (inOff bs outOff k : Nat) :
    (s.blockReached inOff bs outOff k).outCap = s.outCap := by rw [State.blockReached_frame]; rfl

theorem State.blockAlign_blockReached (s : State) (inOff bs outOff k : Nat) :
    (s.blockReached inOff bs outOff k).blockAlign = s.blockAlign := by rw [State.blockReached_frame]

/-- The samples a block decode has written when it reaches k samples, as OUT holds them. -/
theorem State.outHolds_blockReached (s : State) (inOff bs outOff k : Nat) :
    OutHolds (s.blockReached inOff bs outOff k) outOff ((blockSamples (s.blockAt inOff) (isStereo s) bs).take k) :=
  State.outHolds_putHalves _ _ _

theorem State.outByte_blockReached_other (s : State) (inOff bs outOff k : Nat) {a : Nat}
    (h : a < outOff ∨
      outOff + 2 * ((blockSamples (s.blockAt inOff) (isStereo s) bs).take k).length ≤ a) :
    (s.blockReached inOff bs outOff k).outByte a = s.outByte a := by
  rw [State.blockReached, State.outByte_putHalves_other _ _ _ h]
  rfl

theorem OutHolds_append {t : State} {off : Nat} {us vs : List Half} :
    OutHolds t off (us ++ vs) ↔ OutHolds t off us ∧ OutHolds t (off + 2 * us.length) vs := by
  constructor
  · intro h
    refine ⟨fun i hi => ?_, fun i hi => ?_⟩
    · have := h i (by simp; omega)
      rwa [List.getElem_append_left hi] at this
    · have := h (us.length + i) (by simp; omega)
      rw [List.getElem_append_right (by omega)] at this
      simpa [Nat.mul_add, Nat.add_assoc] using this
  · rintro ⟨h1, h2⟩ i hi
    by_cases hu : i < us.length
    · rw [List.getElem_append_left hu]; exact h1 i hu
    · rw [List.getElem_append_right (by omega)]
      have := h2 (i - us.length) (by simp at hi; omega)
      rwa [show off + 2 * us.length + 2 * (i - us.length) = off + 2 * i by omega] at this

theorem dataCodes_mono_succ (rd : Nat → Byte) (n j : Nat) : dataCodes rd false (n + 1) j =
    (.ch0, highNibble (rd j)) :: (.ch0, lowNibble (rd j)) :: dataCodes rd false n (j + 1) := rfl

/-- In a mono block channel 1's set stays as it was; in a stereo block it does not matter what it was. -/
theorem playSets_mono (rd : Nat → Byte) (n j k : Nat) (p q : Predictor) :
    (playSets ((dataCodes rd false n j).take k) p q).2 = q := by
  induction n generalizing j k p with
  | zero => simp [dataCodes, playSets]
  | succ n ih =>
    rw [dataCodes_mono_succ]
    generalize highNibble (rd j) = a
    generalize lowNibble (rd j) = b
    cases k with
    | zero => rfl
    | succ k =>
      cases k with
      | zero => rfl
      | succ k =>
        rw [List.take_succ_cons, List.take_succ_cons, playSets, playSets]
        exact ih _ _ _

theorem blockSets_mono (rd : Nat → Byte) (bs k : Nat) (q : Predictor) : (blockSets rd false bs k q).2 = q :=
  playSets_mono _ _ _ _ _ _

theorem blockSets_stereo (rd : Nat → Byte) (bs k : Nat) (q q' : Predictor) :
    blockSets rd true bs k q = blockSets rd true bs k q' := rfl

/-- In a mono block what channel 0 ends with does not depend on channel 1. -/
theorem playSets_mono_first (rd : Nat → Byte) (n j k : Nat) (p q q' : Predictor) :
    (playSets ((dataCodes rd false n j).take k) p q).1 = (playSets ((dataCodes rd false n j).take k) p q').1 := by
  induction n generalizing j k p with
  | zero => simp [dataCodes, playSets]
  | succ n ih =>
    rw [dataCodes_mono_succ]
    generalize highNibble (rd j) = a
    generalize lowNibble (rd j) = b
    cases k with
    | zero => rfl
    | succ k =>
      cases k with
      | zero => rfl
      | succ k =>
        rw [List.take_succ_cons, List.take_succ_cons, playSets, playSets, playSets, playSets]
        exact ih _ _ _

theorem blockSets_first (rd : Nat → Byte) (st : Bool) (bs k : Nat) (q q' : Predictor) :
    (blockSets rd st bs k q).1 = (blockSets rd st bs k q').1 := by
  cases st
  · exact playSets_mono_first _ _ _ _ _ _ _
  · rfl

/-- Whether channel 1's set is what it was (mono) or a block's (stereo), a later block's sets see only the original one. -/
theorem blockSets_again (rd rd' : Nat → Byte) (st : Bool) (bs bs' k k' : Nat) (q : Predictor) :
    blockSets rd st bs k (blockSets rd' st bs' k' q).2 = blockSets rd st bs k q := by
  cases st
  · rw [blockSets_mono]
  · rfl

/-- The samples of `n` blocks of B bytes from block k on. -/
def State.samplesFrom (s : State) (B n k : Nat) : List Half :=
  (List.range' k n).flatMap fun i => blockSamples (s.blockAt (i * B)) (isStereo s) B

/-- Whether one of `n` blocks from block k on has a clamped index. -/
def State.clampsFrom (s : State) (B n k : Nat) : Bool :=
  (List.range' k n).any fun i => headerClamps (s.blockAt (i * B)) (isStereo s)

theorem State.samplesFrom_blockReached (s : State) (inOff bs outOff m B n k : Nat) :
    (s.blockReached inOff bs outOff m).samplesFrom B n k = s.samplesFrom B n k := by
  simp [State.samplesFrom, State.blockAt_blockReached, isStereo_blockReached]

theorem State.clampsFrom_blockReached (s : State) (inOff bs outOff m B n k : Nat) :
    (s.blockReached inOff bs outOff m).clampsFrom B n k = s.clampsFrom B n k := by
  simp [State.clampsFrom, State.blockAt_blockReached, isStereo_blockReached]

theorem State.samplesFrom_length (s : State) {B : Nat} (n k : Nat) (h : headerSize (isStereo s) ≤ B) :
    2 * (s.samplesFrom B n k).length = n * blockOutput (isStereo s) B := by
  induction n generalizing k with
  | zero => simp [State.samplesFrom]
  | succ n ih =>
    have := ih (k + 1)
    have hb := blockSamples_length (s.blockAt (k * B)) (isStereo s) B h
    simp only [State.samplesFrom, List.range'_succ, List.flatMap_cons, List.length_append] at this ⊢
    rw [Nat.mul_add, this, hb, Nat.succ_mul, Nat.add_comm]

theorem flagIf_or (a b : Bool) (f : Flag) (w : Word) : w ||| flagIf a f ||| flagIf b f = w ||| flagIf (a || b) f := by
  cases a <;> cases b <;> simp [flagIf, BitVec.or_assoc]

theorem State.outMem_putHalves_congr {u v : State} (off : Nat) (vs : List Half) (h : u.outMem = v.outMem) :
    (u.putHalves off vs).outMem = (v.putHalves off vs).outMem := by
  induction vs generalizing u v off with
  | nil => exact h
  | cons x xs ih => exact ih _ (by simp [State.putHalf, h])

/-- Two runs of writes agree when they write the same samples over states that agree once OUT is set aside. -/
theorem State.putHalves_congr {u v : State} (off : Nat) (vs : List Half) (h : u.outMem = v.outMem)
    (hr : { u with outMem := [] } = { v with outMem := [] }) : u.putHalves off vs = v.putHalves off vs := by
  have e : u = v := by
    have hu : u = { ({ u with outMem := [] } : State) with outMem := u.outMem } := rfl
    rw [hu, hr, h]
  rw [e]

theorem State.samplesFrom_succ (s : State) (B n k : Nat) :
    s.samplesFrom B (n + 1) k = blockSamples (s.blockAt (k * B)) (isStereo s) B ++ s.samplesFrom B n (k + 1) := by
  simp [State.samplesFrom, List.range'_succ]

theorem State.clampsFrom_succ (s : State) (B n k : Nat) :
    s.clampsFrom B (n + 1) k = (headerClamps (s.blockAt (k * B)) (isStereo s) || s.clampsFrom B n (k + 1)) := by
  simp [State.clampsFrom, List.range'_succ]

/-- The block loop when everything fits (R122, R123). -/
theorem blockLoop_fits (B n k outOff : Nat) (s : State) (hB : regNat s.blockAlign = B)
    (hh : headerSize (isStereo s) ≤ B) (hi : (k + n) * B ≤ s.inCap)
    (ho : outOff + n * blockOutput (isStereo s) B ≤ s.outCap) :
    blockLoop B n k outOff s = .ok (outOff + n * blockOutput (isStereo s) B)
      (({ s with
        status := s.status ||| flagIf (s.clampsFrom B n k) .predclamp
        ch0 := if n = 0 then s.ch0 else (blockSets (s.blockAt ((k + n - 1) * B)) (isStereo s) B (2 * B) s.ch1).1
        ch1 := if n = 0 then s.ch1 else (blockSets (s.blockAt ((k + n - 1) * B)) (isStereo s) B (2 * B) s.ch1).2 }).putHalves
          outOff (s.samplesFrom B n k)) := by
  induction n generalizing k outOff s with
  | zero => simp [blockLoop, State.samplesFrom, State.putHalves, State.clampsFrom, flagIf]
  | succ n ih =>
    have hk : k * B + B ≤ s.inCap := by
      have : (k + (n + 1)) * B = k * B + B + n * B := by ring
      omega
    have hm : (n + 1) * blockOutput (isStereo s) B = blockOutput (isStereo s) B + n * blockOutput (isStereo s) B := by ring
    have hc : clampBlock (regNat s.blockAlign) B = B := by rw [hB]; exact clampBlock_self B
    have hd : decodeBlock (k * B) B outOff s =
        .ok (outOff + blockOutput (isStereo s) B) (s.blockReached (k * B) B outOff (2 * B)) := by
      have := decodeBlock_cases (k * B) B outOff s
      rw [hc] at this
      rcases this with ⟨h, _⟩ | ⟨_, h, _⟩ | ⟨_, _, _, h⟩ | ⟨_, _, h, _⟩
      · omega
      · omega
      · exact h
      · omega
    rw [blockLoop, hd, Engine.andThen_ok, ih (k + 1) _ _ (by rw [State.blockAlign_blockReached]; exact hB)
      (by rw [isStereo_blockReached]; exact hh)
      (by rw [State.inCap_blockReached]; rw [show k + 1 + n = k + (n + 1) by omega]; exact hi)
      (by rw [isStereo_blockReached, State.outCap_blockReached]; omega)]
    rw [isStereo_blockReached, show outOff + blockOutput (isStereo s) B + n * blockOutput (isStereo s) B =
      outOff + (n + 1) * blockOutput (isStereo s) B by omega]
    congr 1
    have hlen := blockSamples_length (s.blockAt (k * B)) (isStereo s) B hh
    have hfull : (blockSamples (s.blockAt (k * B)) (isStereo s) B).take (2 * B) =
        blockSamples (s.blockAt (k * B)) (isStereo s) B := by
      apply List.take_of_length_le
      simp only [blockOutput] at hlen
      omega
    have split : s.samplesFrom B (n + 1) k = blockSamples (s.blockAt (k * B)) (isStereo s) B ++ s.samplesFrom B n (k + 1) := by
      simp [State.samplesFrom, List.range'_succ]
    have splitC : s.clampsFrom B (n + 1) k = (headerClamps (s.blockAt (k * B)) (isStereo s) || s.clampsFrom B n (k + 1)) := by
      simp [State.clampsFrom, List.range'_succ]
    rw [State.samplesFrom_blockReached, State.clampsFrom_blockReached, State.blockAt_blockReached, split, splitC,
      State.putHalves_append, hlen]
    congr 1
    rw [State.blockReached, hfull, State.putHalves_frame, State.putHalves_frame (s := { s with
        status := _, ch0 := _, ch1 := _ })]
    have e : k + 1 + n - 1 = k + (n + 1) - 1 := by omega
    rw [e]
    have outs : ∀ (u v : State) (off : Nat) (vs : List Half), u.outMem = v.outMem →
        (u.putHalves off vs).outMem = (v.putHalves off vs).outMem := by
      intro u v off vs h
      induction vs generalizing u v off with
      | nil => exact h
      | cons x xs ih => exact ih _ _ _ (by simp [State.putHalf, h])
    simp only [State.withSets, State.headerLoaded]
    rw [blockSets_again, ← flagIf_or]
    rcases n with _ | n
    · simp [flagIf, State.clampsFrom]
    · simp
      exact outs _ _ _ _ rfl

/-- The block loop when the output does not fit (R122, R174): with K samples fitting and P samples a block, block number K / P
from the start is the one reached, and K % P samples of it are written. -/
theorem blockLoop_overflow (B n k outOff : Nat) (s : State) (hB : regNat s.blockAlign = B) (hn : 0 < n)
    (hh : headerSize (isStereo s) ≤ B) (hi : (k + n) * B ≤ s.inCap)
    (ho : s.outCap < outOff + n * blockOutput (isStereo s) B) :
    let K := (s.outCap - outOff) / 2
    let P := blockOutput (isStereo s) B / 2
    blockLoop B n k outOff s = .raise (.outputOverflow (outOff + 2 * K))
      (({ s with
        status := s.status ||| flagIf (s.clampsFrom B (K / P + 1) k) .predclamp
        ch0 := (blockSets (s.blockAt ((k + K / P) * B)) (isStereo s) B (K % P) s.ch1).1
        ch1 := (blockSets (s.blockAt ((k + K / P) * B)) (isStereo s) B (K % P) s.ch1).2 }).putHalves
          outOff ((s.samplesFrom B n k).take K)) := by
  intro K P
  induction n generalizing k outOff s with
  | zero => omega
  | succ n ih =>
    have hk : k * B + B ≤ s.inCap := by
      have : (k + (n + 1)) * B = k * B + B + n * B := by ring
      omega
    have hm : (n + 1) * blockOutput (isStereo s) B = blockOutput (isStereo s) B + n * blockOutput (isStereo s) B := by ring
    have hc : clampBlock (regNat s.blockAlign) B = B := by rw [hB]; exact clampBlock_self B
    have hlen := blockSamples_length (s.blockAt (k * B)) (isStereo s) B hh
    have hpos := blockOutput_pos hh
    have hP : 2 * P = blockOutput (isStereo s) B := by omega
    by_cases hf : outOff + blockOutput (isStereo s) B ≤ s.outCap
    · have hd : decodeBlock (k * B) B outOff s =
          .ok (outOff + blockOutput (isStereo s) B) (s.blockReached (k * B) B outOff (2 * B)) := by
        have := decodeBlock_cases (k * B) B outOff s
        rw [hc] at this
        rcases this with ⟨h, _⟩ | ⟨_, h, _⟩ | ⟨_, _, _, h⟩ | ⟨_, _, h, _⟩
        · omega
        · omega
        · exact h
        · omega
      have hn' : 0 < n := by
        rcases n with _ | n
        · simp at ho; omega
        · omega
      have hK : K = P + (s.outCap - (outOff + blockOutput (isStereo s) B)) / 2 := by omega
      have step := ih (k + 1) (outOff + blockOutput (isStereo s) B) (s.blockReached (k * B) B outOff (2 * B))
        (by rw [State.blockAlign_blockReached]; exact hB) hn'
        (by rw [isStereo_blockReached]; exact hh)
        (by rw [State.inCap_blockReached]; rw [show k + 1 + n = k + (n + 1) by omega]; exact hi)
        (by rw [isStereo_blockReached, State.outCap_blockReached]; omega)
      rw [blockLoop, hd, Engine.andThen_ok, step]
      simp only [isStereo_blockReached, State.outCap_blockReached, State.samplesFrom_blockReached,
        State.clampsFrom_blockReached, State.blockAt_blockReached]
      generalize hL : (s.outCap - (outOff + blockOutput (isStereo s) B)) / 2 = L at hK
      have hdiv : K / P = L / P + 1 := by
        rw [hK, Nat.add_comm P L, Nat.add_div_right _ (by omega)]
      have hmod : K % P = L % P := by rw [hK, Nat.add_mod_left]
      have hoff : outOff + blockOutput (isStereo s) B + 2 * L = outOff + 2 * K := by omega
      rw [hoff, hdiv, hmod, State.samplesFrom_succ, State.clampsFrom_succ s B (L / P + 1) k]
      congr 1
      have htake : (blockSamples (s.blockAt (k * B)) (isStereo s) B ++ s.samplesFrom B n (k + 1)).take K =
          blockSamples (s.blockAt (k * B)) (isStereo s) B ++ (s.samplesFrom B n (k + 1)).take L := by
        rw [hK, show P = (blockSamples (s.blockAt (k * B)) (isStereo s) B).length by omega, List.take_length_add_append]
      have hfull : (blockSamples (s.blockAt (k * B)) (isStereo s) B).take (2 * B) =
          blockSamples (s.blockAt (k * B)) (isStereo s) B := by
        apply List.take_of_length_le
        simp only [blockOutput] at hlen
        omega
      rw [htake, State.putHalves_append, hlen]
      apply State.putHalves_congr
      · simp only [State.blockReached]
        rw [hfull]
        exact State.outMem_putHalves_congr _ _ rfl
      · rw [State.blockReached_frame, State.putHalves_frame]
        simp only [blockSets_again]
        rw [flagIf_or, show k + 1 + L / P = k + (L / P + 1) by omega]
    · have hd : decodeBlock (k * B) B outOff s = .raise (.outputOverflow (outOff + 2 * K))
          (s.blockReached (k * B) B outOff K) := by
        have := decodeBlock_cases (k * B) B outOff s
        rw [hc] at this
        rcases this with ⟨h, _⟩ | ⟨_, h, _⟩ | ⟨_, _, h, _⟩ | ⟨_, _, _, h⟩
        · omega
        · omega
        · omega
        · exact h
      have hKP : K < P := by omega
      rw [blockLoop, hd, Engine.andThen_raise, Nat.div_eq_of_lt hKP, Nat.mod_eq_of_lt hKP]
      congr 1
      rw [State.samplesFrom_succ, List.take_append_of_le_length (by omega)]
      simp only [State.blockReached, Nat.add_zero]
      apply State.putHalves_congr
      · rfl
      · simp [State.withSets, State.headerLoaded, State.clampsFrom]

end Sys2Proof.Machine
end

