-- ==== Sys2Proof/Laws/Host.lean ====
section
/-! SUPPORT. What the shared operations on registers and predictor sets do, and one step for a register read or write. -/

namespace Sys2Proof.Machine

/-- Everything `SelectCoeff` does (R112): the pair of the clamped index, and PREDCLAMP when it was clamped. -/
theorem selectCoeff_eq (c : Chan) (v : Nat) (s : State) :
    selectCoeff c v s = (if 6 < v then s.setFlag .predclamp else s).setCh c
      { s.ch c with coeff1 := toReg adaptCoeff1[predIndex v], coeff2 := toReg adaptCoeff2[predIndex v] } := by
  unfold selectCoeff
  by_cases h : 6 < v
  · simp [h]
  · simp [h]

/-- Everything `NibbleExpand` does to the state (R114, R115 (h)): it replaces the one predictor set. -/
theorem nibbleExpand_eq (c : Chan) (n : Nibble) (s : State) :
    nibbleExpand c n s = ((expandNibble (s.ch c) n).1, s.setCh c (expandNibble (s.ch c) n).2) := rfl

/-- The register at a register's own offset is that register. -/
theorem regAt_regOffset (r : Reg) : regAt (regOffset r) = some r := by
  rcases r with _ | _ | _ | _ | _ | _ | _ | _ | _ | _ | _ | _ | c | c | c | c | c | c
  all_goals first
    | decide
    | (cases c <;> decide)

/-- Every register's offset is one the programmer's model admits. -/
theorem regAccessOk_regOffset (r : Reg) : regAccessOk .word (regOffset r) = true := by
  rcases r with _ | _ | _ | _ | _ | _ | _ | _ | _ | _ | _ | _ | c | c | c | c | c | c
  all_goals first
    | decide
    | (cases c <;> decide)

/-- One step for a host write of a register other than CMD. -/
theorem step_regWrite {s : State} {r : Reg} {v : Word} {rest : List HostOp}
    (h : s.host = .regWrite .word (regOffset r) v :: rest) (hr : r ≠ .cmd) :
    step s = .next (writeReg r v { s with host := rest }) := by
  unfold step hostTurn
  rw [h]
  simp only [hostAccess, regAccessOk_regOffset, if_true, hostRegWrite, regAt_regOffset]

/-- One step for a host read at an offset of the programmer's model. -/
theorem step_regRead {s : State} {off : Nat} {rest : List HostOp}
    (h : s.host = .regRead .word off :: rest) (h4 : off % 4 = 0) (h8 : off < 0x80) :
    step s = .next { s with host := rest, readData := regReadValue off { s with host := rest } } := by
  unfold step hostTurn
  rw [h]
  simp only [hostAccess]
  rw [if_pos (by simp [regAccessOk, h4, h8])]

end Sys2Proof.Machine
end

