-- ==== Sys2Proof/Laws/PerInstr.lean ====
section
/-! SUPPORT. Laws stated per command: the fixed fields of its command word (spec/30_encoding.md R70). -/

namespace Sys2Proof.Laws.WordFields

/-- A command is well formed, its word has ZERO = 0, and its operand bits 8:4 are 0 unless OP is 4 (R70). -/
def Statement (i : Instr) : Prop :=
  i.wellFormed = true ∧ fieldZero (encode i) = 0#23 ∧ (fieldOp (encode i) ≠ 4#4 → fieldOperand (encode i) = 0#5)

theorem alawDec : Statement .alawDec := ⟨rfl, by decide, by decide⟩
theorem adpcmDec : Statement .adpcmDec := ⟨rfl, by decide, by decide⟩
theorem adpcmBlk : Statement .adpcmBlk := ⟨rfl, by decide, by decide⟩
theorem adpcmNib (c : Chan) (nibble : Nibble) : Statement (.adpcmNib c nibble) := by
  refine ⟨rfl, ?_, ?_⟩
  · cases c <;> revert nibble <;> decide
  · cases c <;> revert nibble <;> decide
theorem pass : Statement .pass := ⟨rfl, by decide, by decide⟩
theorem dec : Statement .dec := ⟨rfl, by decide, by decide⟩

end Sys2Proof.Laws.WordFields
end

