-- ==== Sys2Proof/Tests/Slice0.lean ====
section
/-! SUPPORT. The model's own tests: expected values are the spec's vectors (spec/95_test_vectors.md), never the model's own
answers. Each is one step or one function on a small state. -/

namespace Sys2Proof.Tests

open Sys2Proof Sys2Proof.Machine

/-- A machine with the given capacities, freshly reset, then with the given bytes at the start of IN. -/
def withInput (inCap outCap : Cap) (bytes : List Byte) : State :=
  { State.resetWith ⟨inCap, outCap⟩ 0 with
    inMem := (List.range bytes.length).zip bytes
    ch0 := ⟨0, 0, 0, 0, 0⟩
    ch1 := ⟨0, 0, 0, 0, 0⟩ }

/-- Whether an outcome is a next state with the property. -/
def nextHas (o : Host.Outcome State Fault Refusal) (p : State → Bool) : Bool :=
  match o with
  | .next t => p t
  | .fault _ => false
  | .refused _ => false

/-- The bytes of OUT from an offset on. -/
def outBytes (t : State) (off n : Nat) : List Byte := (List.range n).map fun i => t.outByte (off + i)

/-- A predictor set from signed numbers: (coeff1, coeff2, delta, sample1, sample2). -/
def predictor (k1 k2 d s1 s2 : Int) : Predictor := ⟨toReg k1, toReg k2, toReg d, sext16 s1, sext16 s2⟩

-- Well-formedness: every check refuses an ill-formed term.
theorem test_wf_narrow_register_access : (HostOp.regRead .byte 0x04).wellFormed Config.params = false := by decide
theorem test_wf_half_register_access : (HostOp.regWrite .half 0x04 0).wellFormed Config.params = false := by decide
theorem test_wf_misaligned_register_access : (HostOp.regRead .word 0x06).wellFormed Config.params = false := by decide
theorem test_wf_register_offset_above_7F : (HostOp.regWrite .word 0x80 0).wellFormed Config.params = false := by decide
theorem test_wf_last_register_offset : (HostOp.regRead .word 0x7C).wellFormed Config.params = true := by decide
theorem test_wf_in_write_past_cap : (HostOp.inWrite 16 0).wellFormed ⟨16, 64⟩ = false := by decide
theorem test_wf_in_read_past_cap : (HostOp.inRead 16).wellFormed ⟨16, 64⟩ = false := by decide
theorem test_wf_out_write_past_cap : (HostOp.outWrite 64 0).wellFormed ⟨16, 64⟩ = false := by decide
theorem test_wf_out_read_past_cap : (HostOp.outRead 64).wellFormed ⟨16, 64⟩ = false := by decide
theorem test_wf_descriptor_channels : (FormatDescriptor.mk .aLaw 3 8 8000 0 0 none).wellFormed = false := by decide

-- Decoding: the words of R71, written out from the format of R70, and the illegal words of 95_test_vectors.md section 8.
theorem test_decode_alaw : decodeTableWord 32 0x00000001 = some .alawDec := by decide
theorem test_decode_adpcm_dec : decodeTableWord 32 0x00000002 = some .adpcmDec := by decide
theorem test_decode_adpcm_blk : decodeTableWord 32 0x00000003 = some .adpcmBlk := by decide
theorem test_decode_adpcm_nib : decodeTableWord 32 0b1_0111_0100 = some (.adpcmNib .ch1 7) := by decide
theorem test_decode_pass : decodeTableWord 32 0x00000005 = some .pass := by decide
theorem test_decode_dec : decodeTableWord 32 0x00000006 = some .dec := by decide
theorem test_decode_legal_extremes :
    [0x000001F4#32, 0x000000F4#32, 0x00000104#32].map decode =
      [.ok (.adpcmNib .ch1 15), .ok (.adpcmNib .ch0 15), .ok (.adpcmNib .ch1 0)] := by decide
theorem test_decode_no_such_op :
    [0x00000000#32, 0x00000007#32, 0x00000008#32, 0x0000000F#32].map decode =
      List.replicate 4 (.error .noSuchOp) := by decide
theorem test_decode_operand_bits :
    [0x00000011#32, 0x00000101#32, 0x00000015#32].map decode = List.replicate 3 (.error .operandBitsSet) := by decide
theorem test_decode_zero_field :
    [0x00000206#32, 0x00000204#32, 0x80000001#32, 0xFFFFFFFF#32].map decode =
      List.replicate 4 (.error .zeroFieldSet) := by decide

-- ALawExpand: 95_test_vectors.md section 2.2.
theorem test_alaw_single_bytes :
    [0xD5#8, 0x55#8, 0xDA#8, 0xC5#8, 0xCA#8, 0xF5#8, 0xE5#8, 0x80#8, 0x7F#8, 0xAA#8, 0x2A#8].map alawValue =
      [8, -8, 248, 264, 504, 528, 1056, 5504, -848, 32256, -32256] := by decide
/-- Row 4 of the table of section 2.1. -/
theorem test_alaw_row_4 :
    ((List.range 16).map fun i => (alawExpand (BitVec.ofNat 8 (0x40 + i))).toInt) =
      [-344, -328, -376, -360, -280, -264, -312, -296, -472, -456, -504, -488, -408, -392, -440, -424] := by decide

-- ALAW.DEC: vectors A1 and A4.
theorem test_alaw_dec :
    nextHas (exec .alawDec { withInput 16 64 [0xD5, 0x55, 0xAA, 0x2A, 0x80, 0xFF] with len := 6 }) (fun t =>
      outBytes t 0 12 == [0x08, 0x00, 0xF8, 0xFF, 0x00, 0x7E, 0x00, 0x82, 0x80, 0x15, 0x50, 0x03]
        && t.outOff == 12 && t.status == 0) = true := by decide +kernel
theorem test_alaw_dec_overflow :
    nextHas (exec .alawDec { withInput 16 5 [0xD5, 0x55, 0xAA, 0x2A, 0x80, 0xFF] with len := 6 }) (fun t =>
      outBytes t 0 4 == [0x08, 0x00, 0xF8, 0xFF] && t.outMem.length == 4
        && t.outOff == 4 && t.status == 8) = true := by decide +kernel

-- ADPCM.NIB: vectors NB6, NB7, NB22 and NB30.
theorem test_nib_worked_example :
    nextHas (exec (.adpcmNib .ch0 7) { State.reset with ch0 := predictor 512 (-256) 16 1000 900 }) (fun t =>
      t.result == sext16 1212 && t.ch0 == predictor 512 (-256) 38 1212 1000) = true := by decide +kernel
theorem test_nib_truncates_toward_zero :
    nextHas (exec (.adpcmNib .ch0 0) { State.reset with ch0 := predictor 192 64 16 (-1) 0 }) (fun t =>
      t.result == 0 && t.ch0 == predictor 192 64 16 0 (-1)) = true := by decide +kernel
theorem test_nib_delta_product_wraps :
    nextHas (exec (.adpcmNib .ch0 8) { State.reset with ch0 := predictor 256 0 2796203 0 0 }) (fun t =>
      t.result == sext16 (-21848) && t.ch0 == predictor 256 0 16 (-21848) 0) = true := by decide +kernel
theorem test_nib_channel_1 :
    nextHas (exec (.adpcmNib .ch1 7) { State.reset with
        ch0 := predictor 256 0 16 1 2, ch1 := predictor 512 (-256) 16 1000 900 }) (fun t =>
      t.result == sext16 1212 && t.ch1 == predictor 512 (-256) 38 1212 1000
        && t.ch0 == predictor 256 0 16 1 2) = true := by decide +kernel
/-- The step-size row "From delta 100" of section 4. -/
theorem test_nib_adaptation_row :
    ((List.range 16).map fun n => newDelta (predictor 256 0 100 0 0) (BitVec.ofNat 4 n)) =
      [89, 89, 89, 89, 119, 159, 200, 239, 300, 239, 200, 159, 119, 89, 89, 89] := by decide +kernel

-- ADPCM.BLK: vectors B2 and B12.
theorem test_blk_offsets_and_cut :
    nextHas (exec .adpcmBlk { withInput 32 32 [0, 0, 0, 0x01, 0x10, 0x00, 0xE8, 0x03, 0x84, 0x03, 0x07, 0x8F, 0x10, 0xFF, 0xFF] with
        channels := 1, blockAlign := 9, inOff := 3, blkSize := 12, outOff := 6 }) (fun t =>
      outBytes t 6 12 == [0xE8, 0x03, 0x84, 0x03, 0x4C, 0x04, 0x20, 0x05, 0xC4, 0x04, 0xF6, 0x03]
        && t.outMem.length == 12 && t.outOff == 18 && t.inOff == 3 && t.status == 0
        && t.ch0 == predictor 512 (-256) 102 1014 1220) = true := by decide +kernel
theorem test_blk_stereo_overflow_inside_a_frame :
    nextHas (exec .adpcmBlk { withInput 16 10 [0, 0, 0x10, 0, 0x10, 0, 0x0A, 0, 0x14, 0, 0x1E, 0, 0x28, 0, 0x12] with
        channels := 2, blockAlign := 15, blkSize := 15 }) (fun t =>
      outBytes t 0 10 == [0x0A, 0, 0x14, 0, 0x1E, 0, 0x28, 0, 0x1A, 0] && t.outOff == 10 && t.status == 8
        && t.ch0 == predictor 256 0 16 26 10 && t.ch1 == predictor 256 0 16 20 40) = true := by decide +kernel

-- ADPCM.DEC: vectors DC4 and F4.
theorem test_adpcm_dec_stereo :
    nextHas (exec .adpcmDec { withInput 64 64
        [0x00, 0x09, 0x10, 0x00, 0x20, 0x00, 0x64, 0x00, 0x9C, 0xFF, 0x32, 0x00, 0xCE, 0xFF, 0x17, 0xF8,
         0x02, 0x04, 0x00, 0x01, 0x10, 0x00, 0x00, 0x80, 0xFF, 0x7F, 0x01, 0x00, 0xFF, 0xFF, 0x7F, 0x88,
         0xAA, 0xBB, 0xCC] with channels := 2, blockAlign := 16, len := 35 }) (fun t =>
      outBytes t 0 32 ==
        [0x64, 0x00, 0x9C, 0xFF, 0x32, 0x00, 0xCE, 0xFF, 0x74, 0x00, 0x75, 0x00, 0x64, 0x00, 0xAD, 0xFE,
         0x00, 0x80, 0xFF, 0x7F, 0x01, 0x00, 0xFF, 0xFF, 0x00, 0x07, 0xEF, 0x77, 0xD0, 0xEC, 0xF0, 0x6F]
        && t.outOff == 32 && t.status == 0x500
        && t.ch0 == predictor 0 0 1842 (-4912) 1792 && t.ch1 == predictor 240 0 48 28656 30703) = true := by decide +kernel
theorem test_adpcm_dec_one_fault_only :
    nextHas (exec .adpcmDec { withInput 8 16 [] with channels := 0, blockAlign := 0, len := 100, outOff := 77 }) (fun t =>
      t.status == 2 && t.outOff == 77 && t.outMem.length == 0) = true := by decide

-- PASS: vectors X1 and X8.
theorem test_pass :
    nextHas (exec .pass { withInput 16 16 [0xDE, 0xAD, 0xBE, 0xEF, 0x01] with len := 5 }) (fun t =>
      outBytes t 0 5 == [0xDE, 0xAD, 0xBE, 0xEF, 0x01] && t.outOff == 5 && t.status == 0) = true := by decide +kernel
theorem test_pass_overflow :
    nextHas (exec .pass { withInput 4 3 [1, 2, 3, 4] with len := 4 }) (fun t =>
      outBytes t 0 3 == [1, 2, 3] && t.outOff == 3 && t.status == 8) = true := by decide +kernel

-- DEC: vectors X4 and X2.
theorem test_dec_alaw :
    nextHas (exec .dec { withInput 16 16 [0xD5, 0x55] with fmtTag := 1, len := 2 }) (fun t =>
      outBytes t 0 4 == [0x08, 0x00, 0xF8, 0xFF] && t.outOff == 4) = true := by decide +kernel
theorem test_dec_other_passes_through :
    nextHas (exec .dec { withInput 16 16 [0xDE, 0xAD, 0xBE, 0xEF, 0x01] with fmtTag := 3, len := 5 }) (fun t =>
      outBytes t 0 5 == [0xDE, 0xAD, 0xBE, 0xEF, 0x01] && t.outOff == 5 && t.status == 0) = true := by decide +kernel

-- Registers: vectors RG7, RG11, RG14, RG15, RG16, RG19, through one step each.
theorem test_write_pred_clamps :
    nextHas (step { State.reset with host := [asmWr (.pred .ch1) 7] }) (fun t =>
      readReg t (.coeff1 .ch1) == 392 && readReg t (.coeff2 .ch1) == 0xFFFFFF18 && t.status == 0x400) = true := by decide +kernel
theorem test_write_s1_keeps_low_half :
    nextHas (step { State.reset with host := [asmWr (.s1 .ch0) 0x00018000] }) (fun t =>
      readReg t (.s1 .ch0) == 0xFFFF8000) = true := by decide +kernel
theorem test_write_fmt_tag :
    nextHas (step { State.reset with host := [asmWr .fmtTag 0xFFFFFFFE] }) (fun t =>
      readReg t .fmtTag == 2) = true := by decide +kernel
theorem test_write_status_clears_ones :
    nextHas (step { State.reset with status := 0x508, host := [asmWr .status 0x00000008] }) (fun t =>
      readReg t .status == 0x500) = true := by decide +kernel
theorem test_write_status_keeps_zeros :
    nextHas (step { State.reset with status := 0x508, host := [asmWr .status 0xFFFFFFF0] }) (fun t =>
      readReg t .status == 0x008) = true := by decide +kernel
theorem test_read_hole :
    nextHas (step { State.reset with readData := 9, host := [.regRead .word 0x30] }) (fun t => t.readData == 0) = true := by
  decide +kernel
theorem test_register_offsets_distinct : (allRegs.map regOffset).Nodup := by decide
theorem test_illegal_word :
    nextHas (step { State.reset with host := [asmWr .cmd 0x00000009] }) (fun t => t.status == 1) = true := by decide +kernel
theorem test_fetched_word_runs :
    nextHas (step (State.reset.withFetchWord 32 0x00000002)) (fun t => t.status == 2) = true := by decide +kernel
theorem test_host_reset :
    nextHas (step { State.reset with len := 5, status := 7, host := [.reset, asmRd .len] }) (fun t =>
      t.len == 0 && t.status == 0 && t.epoch == 1 && t.host == [asmRd .len]) = true := by decide +kernel

-- Host functions: vectors E2, E6, E14, E13 and T4.
theorem test_estimate_alaw_stereo :
    estimateOutputSize 100 ⟨.aLaw, 2, 8, 8000, 0, 0, none⟩ = .size 400 := by decide
theorem test_estimate_adpcm_stereo :
    estimateOutputSize 256 ⟨.adpcmMS, 2, 4, 22050, 256, 0, none⟩ = .size 2034 := by decide
theorem test_estimate_zero_divisor :
    estimateOutputSize 10 ⟨.aLaw, 1, 0, 8000, 0, 0, none⟩ = .noValue := by decide
theorem test_estimate_overflow :
    estimateOutputSize 2147483648 ⟨.other, 1, 8, 8000, 0, 0, none⟩ = .sizeOverflow := by decide
theorem test_translate_adpcm :
    translateForDevice ⟨.adpcmMS, 2, 4, 22050, 1024, 22311, some [1]⟩ =
      ⟨.adpcmMS, 2, 16, 22050, 4, 88200, none⟩ := by decide

-- Witnesses: for every statement with hypotheses, concrete values that meet all of them together, one for each clause.

/-- A machine with 16 bytes of IN and 8 of OUT whose host has the given accesses pending. -/
def hostWith (ops : List HostOp) : State := { withInput 16 8 [] with host := ops }

/-- A mono stream's machine: IN_CAP 16, the given OUT_CAP, one block of 9 bytes with index 0, delta 16 and zero data. -/
def monoBlock (outCap : Cap) : State :=
  { withInput 16 outCap [0, 16, 0, 5, 0, 6, 0, 0, 0] with
    channels := 1, blockAlign := 9, blkSize := 9, len := 9, fmtTag := 2 }

theorem witness_IllegalWordRaisesIllegalCommand :
    (hostWith [asmWr .cmd 0x00000200]).host = .regWrite .word 0x00 0x00000200 :: [] ∧
    decode 0x00000200#32 = .error .zeroFieldSet := by decide
theorem witness_StepRunsDecodedCommand :
    (hostWith [asmCmd .pass]).host = .regWrite .word 0x00 0x00000005 :: [] ∧ decode 0x00000005#32 = .ok .pass ∧
    (hostWith []).host = [] := by decide
theorem witness_StepStopsOnlyOutsideTheModel :
    ((hostWith [.regWrite .half 0x04 0]).host = .regWrite .half 0x04 0 :: [] ∧ AccessWidth.half ≠ .word) ∧
    ((hostWith [.regRead .word 0x80]).host = .regRead .word 0x80 :: [] ∧ 0x7F < 0x80) ∧
    ((hostWith [.inWrite 16 1]).host = .inWrite 16 1 :: [] ∧ (hostWith [.inWrite 16 1]).inCap ≤ 16) ∧
    ((hostWith [.inRead 16]).host = .inRead 16 :: [] ∧ (hostWith [.inRead 16]).inCap ≤ 16) ∧
    ((hostWith [.outWrite 8 1]).host = .outWrite 8 1 :: [] ∧ (hostWith [.outWrite 8 1]).outCap ≤ 8) ∧
    ((hostWith [.outRead 8]).host = .outRead 8 :: [] ∧ (hostWith [.outRead 8]).outCap ≤ 8) := by decide
theorem witness_MemWriteWholeOrNotAtAll :
    (hostWith []).outCap < 8 + 1 ∧ 7 + 1 ≤ (hostWith []).outCap ∧ (hostWith []).outCap < 7 + 2 ∧
    6 + 2 ≤ (hostWith []).outCap := by decide
theorem witness_MemReadLittleEndian :
    (hostWith []).inCap < 16 + 1 ∧ 15 + 1 ≤ (hostWith []).inCap ∧ (hostWith []).inCap < 15 + 2 ∧
    14 + 2 ≤ (hostWith []).inCap := by decide
theorem witness_AlawDecCompletes :
    2 * alawCount { hostWith [] with len := 4 } ≤ State.outCap { hostWith [] with len := 4 } := by decide
theorem witness_AlawDecOverflows :
    State.outCap { hostWith [] with len := 5 } < 2 * alawCount { hostWith [] with len := 5 } := by decide
theorem witness_NibbleDeltaStaysInRange : ∃ t, exec (.adpcmNib .ch1 8) (hostWith []) = .next t := ⟨_, rfl⟩
theorem witness_NibbleWidthInvisibleInDomain :
    (predictor 392 (-232) 2796202 1 2).tablePair ∧ 0 ≤ (predictor 392 (-232) 2796202 1 2).delta.toInt ∧
    (predictor 392 (-232) 2796202 1 2).delta.toInt ≤ 2796202 :=
  ⟨⟨6, by decide⟩, by decide, by decide⟩
theorem witness_NibbleSampleSeesDeltaModulo :
    (predictor 256 0 65537 1 2).delta.toNat % 65536 = (1#32).toNat % 65536 := by decide
theorem witness_FloorHoldsForAWholeBlock :
    adpcmBlkReady (monoBlock 12) ∧ regNat (monoBlock 12).channels = 1 ∧
    regNat (monoBlock 12).outOff + blockOutput false (monoBlock 12).blkBytes ≤ (monoBlock 12).outCap ∧
    (monoBlock 12).inByte (regNat (monoBlock 12).inOff) = 0#8 ∧
    fieldAt ((monoBlock 12).blockAt (regNat (monoBlock 12).inOff)) 1 = 16#16 ∧
    (∀ j, 7 ≤ j → j < (monoBlock 12).blkBytes → (monoBlock 12).inByte (regNat (monoBlock 12).inOff + j) = 0#8) := by
  refine ⟨⟨by decide, by decide, by decide⟩, by decide, by decide, by decide, by decide, fun j h7 h9 => ?_⟩
  have : j < 9 := h9
  obtain rfl | rfl : j = 7 ∨ j = 8 := by omega
  all_goals decide
theorem witness_AdpcmBlkCompletes :
    adpcmBlkReady (monoBlock 12) ∧
    regNat (monoBlock 12).outOff + blockOutput (isStereo (monoBlock 12)) (monoBlock 12).blkBytes ≤ (monoBlock 12).outCap :=
  ⟨⟨by decide, by decide, by decide⟩, by decide⟩
theorem witness_AdpcmBlkSkipsShortBlocks :
    channelsLegal { monoBlock 12 with blkSize := 6 } = true ∧
    State.blkBytes { monoBlock 12 with blkSize := 6 } < headerSize (isStereo { monoBlock 12 with blkSize := 6 }) := by decide
theorem witness_AdpcmBlkOverflows :
    adpcmBlkReady (monoBlock 11) ∧
    (monoBlock 11).outCap < regNat (monoBlock 11).outOff + blockOutput (isStereo (monoBlock 11)) (monoBlock 11).blkBytes :=
  ⟨⟨by decide, by decide, by decide⟩, by decide⟩
theorem witness_AdpcmDecCompletes :
    adpcmDecReady (monoBlock 12) ∧
    (monoBlock 12).blockCount * blockOutput (isStereo (monoBlock 12)) (regNat (monoBlock 12).blockAlign) ≤
      (monoBlock 12).outCap :=
  ⟨⟨by decide, by decide, by decide⟩, by decide⟩
theorem witness_AdpcmDecSkipsShortBlocks :
    channelsLegal { monoBlock 12 with blockAlign := 6 } = true ∧
    regNat (6#32) ≠ 0 ∧ regNat (monoBlock 12).len ≤ (monoBlock 12).inCap ∧
    regNat (6#32) < headerSize (isStereo { monoBlock 12 with blockAlign := 6 }) := by decide
theorem witness_AdpcmDecOverflows :
    adpcmDecReady (monoBlock 11) ∧
    (monoBlock 11).outCap <
      (monoBlock 11).blockCount * blockOutput (isStereo (monoBlock 11)) (regNat (monoBlock 11).blockAlign) :=
  ⟨⟨by decide, by decide, by decide⟩, by decide⟩
theorem witness_BlockDecodeDeltaStaysInRange :
    (adpcmBlkReady (monoBlock 12) ∧ headerSize (isStereo (monoBlock 12)) < (monoBlock 12).blkBytes ∧
      regNat (monoBlock 12).outOff + blockOutput (isStereo (monoBlock 12)) (monoBlock 12).blkBytes ≤ (monoBlock 12).outCap) ∧
    (adpcmDecReady (monoBlock 12) ∧ headerSize (isStereo (monoBlock 12)) < regNat (monoBlock 12).blockAlign ∧
      (monoBlock 12).blockCount ≠ 0 ∧
      (monoBlock 12).blockCount * blockOutput (isStereo (monoBlock 12)) (regNat (monoBlock 12).blockAlign) ≤
        (monoBlock 12).outCap) :=
  ⟨⟨⟨by decide, by decide, by decide⟩, by decide, by decide⟩,
   ⟨by decide, by decide, by decide⟩, by decide, by decide, by decide⟩
theorem witness_AdpcmDecEqualsBlockWalk :
    adpcmDecReady (monoBlock 12) ∧
    (monoBlock 12).blockCount * blockOutput (isStereo (monoBlock 12)) (regNat (monoBlock 12).blockAlign) ≤
      (monoBlock 12).outCap ∧ (monoBlock 12).blockCount = 1 :=
  ⟨⟨by decide, by decide, by decide⟩, by decide, by decide⟩
theorem witness_PassCompletes :
    regNat (monoBlock 9).len ≤ (monoBlock 9).inCap ∧ regNat (monoBlock 9).len ≤ (monoBlock 9).outCap := by decide
theorem witness_PassOverflows :
    regNat (monoBlock 8).len ≤ (monoBlock 8).inCap ∧ (monoBlock 8).outCap < regNat (monoBlock 8).len := by decide
theorem witness_DecCompletes :
    (({ monoBlock 18 with fmtTag := 1 } : State).fmtTag = 1#2 ∧ 2 * alawCount (monoBlock 18) ≤ (monoBlock 18).outCap) ∧
    ((monoBlock 12).fmtTag = 2#2 ∧ adpcmDecReady (monoBlock 12) ∧
      (monoBlock 12).blockCount * blockOutput (isStereo (monoBlock 12)) (regNat (monoBlock 12).blockAlign) ≤
        (monoBlock 12).outCap) ∧
    (({ monoBlock 9 with fmtTag := 3 } : State).fmtTag = 3#2 ∧ regNat (monoBlock 9).len ≤ (monoBlock 9).inCap ∧
      regNat (monoBlock 9).len ≤ (monoBlock 9).outCap) :=
  ⟨by decide, ⟨by decide, ⟨by decide, by decide, by decide⟩, by decide⟩, by decide⟩
theorem witness_ConfigErrorTaken :
    (({ monoBlock 12 with channels := 3 } : State).channels ≠ 1#32 ∧
      ({ monoBlock 12 with channels := 3 } : State).channels ≠ 2#32) ∧
    (({ monoBlock 12 with blockAlign := 0 } : State).blockAlign = 0#32 ∧ (monoBlock 12).fmtTag = 2#2) ∧
    (∃ t, exec (.adpcmNib .ch0 3) (monoBlock 12) = .next t) ∧
    (({ monoBlock 12 with blockAlign := 0 } : State).channels = 1#32 ∧
      ∃ t, exec .adpcmBlk { monoBlock 12 with blockAlign := 0 } = .next t) ∧
    ((monoBlock 12).channels = 1#32 ∧ (monoBlock 12).blockAlign ≠ 0#32 ∧ ∃ t, exec .adpcmDec (monoBlock 12) = .next t) ∧
    (({ monoBlock 18 with fmtTag := 1 } : State).fmtTag ≠ 2#2 ∧
      ∃ t, exec .dec { monoBlock 18 with fmtTag := 1 } = .next t) ∧
    ((monoBlock 12).channels = 1#32 ∧ ∃ t, exec .dec (monoBlock 12) = .next t) :=
  ⟨by decide, by decide, ⟨_, rfl⟩, ⟨rfl, _, rfl⟩, ⟨rfl, by decide, _, rfl⟩, ⟨by decide, _, rfl⟩, rfl, _, rfl⟩
theorem witness_InputRangeTaken :
    (State.inCap { monoBlock 12 with len := 17 } < regNat 17#32 ∧ channelsLegal { monoBlock 12 with len := 17 } = true ∧
      (monoBlock 12).blockAlign ≠ 0#32 ∧ (monoBlock 12).fmtTag = 2#2 ∧
      ({ monoBlock 12 with len := 17, fmtTag := 3 } : State).fmtTag = 3#2) ∧
    (channelsLegal { monoBlock 12 with inOff := 8 } = true ∧ headerSize (isStereo (monoBlock 12)) ≤ (monoBlock 12).blkBytes ∧
      (monoBlock 12).inCap < regNat 8#32 + (monoBlock 12).blkBytes) ∧
    (∃ t, exec .alawDec (monoBlock 18) = .next t) ∧ (∃ t, exec (.adpcmNib .ch1 3) (monoBlock 12) = .next t) ∧
    (regNat 16#32 = (monoBlock 16).inCap ∧ ∃ t, exec .pass { monoBlock 16 with len := 16 } = .next t) ∧
    (∃ t, exec .adpcmDec { monoBlock 16 with len := 16 } = .next t) ∧
    (State.blkBytes { monoBlock 12 with inOff := 99, blkSize := 6 } < headerSize (isStereo (monoBlock 12)) ∧
      ∃ t, exec .adpcmBlk { monoBlock 12 with inOff := 99, blkSize := 6 } = .next t) ∧
    (regNat 7#32 + (monoBlock 12).blkBytes = (monoBlock 12).inCap ∧
      ∃ t, exec .adpcmBlk { monoBlock 12 with inOff := 7 } = .next t) ∧
    (∃ t, exec .dec { monoBlock 32 with fmtTag := 1, len := 17 } = .next t) ∧
    (∃ t, exec .dec { monoBlock 16 with fmtTag := 3, len := 16 } = .next t) :=
  ⟨by decide, by decide, ⟨_, rfl⟩, ⟨_, rfl⟩, ⟨rfl, _, rfl⟩, ⟨_, rfl⟩, ⟨by decide, _, rfl⟩, ⟨rfl, _, rfl⟩, ⟨_, rfl⟩, _, rfl⟩
/-- The one hypothesis of CommandFrame, CommandsNeverClearFlags and (with STATUS 0) OneFaultPerCommand. -/
theorem witness_CommandFrame :
    (monoBlock 12).status = 0#32 ∧ ∃ t, exec .adpcmBlk (monoBlock 12) = .next t := ⟨rfl, _, rfl⟩
theorem witness_CommandWritesOnlyItsOutput :
    (wholeBuffer .pass = true ∧ ∃ t, exec .pass (monoBlock 9) = .next t) ∧
    (∃ t, exec .adpcmBlk (monoBlock 12) = .next t) ∧
    (∃ t, exec (.adpcmNib .ch0 3) (monoBlock 12) = .next t) :=
  ⟨⟨rfl, _, rfl⟩, ⟨_, rfl⟩, _, rfl⟩
theorem witness_MonoDecodeIgnoresChannelOne : (monoBlock 12).channels = 1#32 := by decide
theorem witness_DecodeIgnoresLeftoverState :
    (wholeBuffer .dec = true ∧ SameInputs (monoBlock 12) { monoBlock 12 with status := 8, outOff := 3, result := 1 }) ∧
    (({ monoBlock 12 with status := 8 } : State).outOff = (monoBlock 12).outOff ∧
      SameInputs (monoBlock 12) { monoBlock 12 with status := 8 }) :=
  ⟨⟨rfl, rfl, rfl, rfl, rfl, rfl, rfl, rfl, rfl, rfl, rfl⟩, rfl, rfl, rfl, rfl, rfl, rfl, rfl, rfl, rfl, rfl, rfl⟩
/-- Two runs that complete, their output written both times, of PASS and of ADPCM.BLK with OUT_OFF restored. -/
theorem witness_DecodeTwiceGivesTheSame :
    (∃ t u, exec .pass (monoBlock 9) = .next t ∧ wholeBuffer .pass = true ∧ exec .pass t = .next u ∧
      t.status = 0#32 ∧ t.outOff = 9#32) ∧
    (∃ t u, exec .adpcmBlk (monoBlock 12) = .next t ∧
      exec .adpcmBlk { t with outOff := (monoBlock 12).outOff } = .next u ∧ t.status = 0#32 ∧ t.outOff = 12#32) :=
  ⟨⟨_, _, rfl, rfl, rfl, rfl, rfl⟩, _, _, rfl, rfl, rfl, rfl⟩
theorem witness_RegisterWriteReadsBack :
    (hostWith [asmWr (.s1 .ch1) 0x00018000]).host = .regWrite .word (regOffset (.s1 .ch1)) 0x00018000 :: [] ∧
    readBack 0x00018000 (.s1 .ch1) = some 0xFFFF8000#32 := by decide
theorem witness_ReadOnlyWritesIgnored :
    ((hostWith [.regWrite .word 0x24 1]).host = .regWrite .word 0x24 1 :: [] ∧
      0x24 ∈ [0x24, 0x28, 0x2C, 0x44, 0x48, 0x64, 0x68]) ∧
    ((hostWith [.regWrite .word 0x7C 1]).host = .regWrite .word 0x7C 1 :: [] ∧
      0x7C ∈ [0x30, 0x34, 0x38, 0x3C, 0x58, 0x5C, 0x78, 0x7C]) := by decide
theorem witness_StatusWriteOneToClear :
    (hostWith [asmWr .status 0x00000708]).host = .regWrite .word 0x04 0x00000708 :: [] := by decide
theorem witness_RegisterReadsReturn :
    (hostWith [asmRd .cmd]).host = .regRead .word 0x00 :: [] ∧ (hostWith [asmRd .status]).host = .regRead .word 0x04 :: [] ∧
    (hostWith [asmRd .result]).host = .regRead .word 0x24 :: [] ∧
    (hostWith [asmRd (.s2 .ch1)]).host = .regRead .word (0x60 + 0x14) :: [] ∧
    (hostWith [.regRead .word 0x7C]).host = .regRead .word 0x7C :: [] ∧ 0x7C % 4 = 0 ∧ 0x7C < 0x80 := by decide
theorem witness_PredWriteSelectsCoefficients :
    (hostWith [asmWr (.pred .ch1) 7]).host = .regWrite .word (if Chan.ch1 = .ch0 then 0x40 else 0x60) 7 :: [] := by decide
theorem witness_HostBufferAccess :
    ((hostWith [.inWrite 15 1]).host = .inWrite 15 1 :: [] ∧ 15 < (hostWith [.inWrite 15 1]).inCap) ∧
    ((hostWith [.outWrite 7 1]).host = .outWrite 7 1 :: [] ∧ 7 < (hostWith [.outWrite 7 1]).outCap) ∧
    ((hostWith [.inRead 15]).host = .inRead 15 :: [] ∧ 15 < (hostWith [.inRead 15]).inCap) ∧
    ((hostWith [.outRead 7]).host = .outRead 7 :: [] ∧ 7 < (hostWith [.outRead 7]).outCap) := by decide
theorem witness_PlatformResetClearsRegisters : (hostWith [.reset]).host = .reset :: [] := by decide
theorem witness_StepKeepsInvariant : (hostWith [asmWr .len 5]).Inv ∧ ∃ t, step (hostWith [asmWr .len 5]) = .next t :=
  ⟨⟨by decide, by decide, by decide, by decide, by decide⟩, _, rfl⟩
theorem witness_TablePairsPersist :
    ((∀ rest, (hostWith [asmRd .len]).host ≠ .reset :: rest) ∧
      (State.ch { hostWith [asmRd .len] with ch0 := predictor 512 (-256) 0 0 0 } .ch0).tablePair ∧
      ∃ t, step { hostWith [asmRd .len] with ch0 := predictor 512 (-256) 0 0 0 } = .next t) ∧
    ((hostWith [asmWr (.pred .ch1) 9]).host = .regWrite .word (regOffset (.pred .ch1)) 9 :: [] ∧
      ∃ t, step (hostWith [asmWr (.pred .ch1) 9]) = .next t) :=
  ⟨⟨fun _ h => (nomatch h), ⟨1, by decide⟩, _, rfl⟩, rfl, _, rfl⟩
theorem witness_ParametersNeverChange : ∃ t, step (hostWith [.reset]) = .next t := ⟨_, rfl⟩
theorem witness_TranslateForDeviceResult :
    (FormatDescriptor.mk .linearPCM 1 8 8000 1 8000 none).formatTag = .linearPCM ∧
    (FormatDescriptor.mk .other 1 8 8000 1 8000 none).formatTag ≠ .linearPCM := by decide
theorem witness_EstimateOutputSizeResult :
    (2147483647 : Int) < 2147483648 ∧ ((0 : Int) ≤ 2147483647 ∧ (2147483647 : Int) ≤ 2147483647) ∧
    (FormatDescriptor.mk .other 1 0 8000 0 0 none).formatTag = .other ∧
    ((FormatDescriptor.mk .aLaw 1 8 8000 0 0 none).formatTag = .aLaw ∧
      (FormatDescriptor.mk .aLaw 1 8 8000 0 0 none).bitsPerSample ≠ 0) ∧
    (FormatDescriptor.mk .aLaw 1 0 8000 0 0 none).bitsPerSample = 0 ∧
    ((FormatDescriptor.mk .adpcmMS 2 4 8000 14 0 none).bitsPerSample ≠ 0 ∧
      (FormatDescriptor.mk .adpcmMS 2 4 8000 14 0 none).blockAlign ≠ 0) ∧
    (FormatDescriptor.mk .adpcmMS 2 4 8000 0 0 none).blockAlign = 0 := by decide
theorem witness_EstimateCoversOutput :
    ((FormatDescriptor.mk .aLaw 2 8 8000 0 0 none).wellFormed = true ∧ 2 ≤ (hostWith []).inCap ∧
      estimateOutputSize (2 : Nat) ⟨.aLaw, 2, 8, 8000, 0, 0, none⟩ = .size 8 ∧ (8 : Int) ≤ (hostWith []).outCap) ∧
    ((FormatDescriptor.mk .adpcmMS 1 4 8000 7 0 none).wellFormed = true ∧ 7 ≤ (monoBlock 21).inCap ∧
      7 * 1 ≤ (FormatDescriptor.mk .adpcmMS 1 4 8000 7 0 none).blockAlign ∧
      estimateOutputSize (7 : Nat) ⟨.adpcmMS, 1, 4, 8000, 7, 0, none⟩ = .size 21 ∧ (21 : Int) ≤ (monoBlock 21).outCap) ∧
    ((FormatDescriptor.mk .other 1 0 8000 0 0 none).wellFormed = true ∧ 8 ≤ (hostWith []).inCap ∧
      estimateOutputSize (8 : Nat) ⟨.other, 1, 0, 8000, 0, 0, none⟩ = .size 8 ∧ (8 : Int) ≤ (hostWith []).outCap) := by decide

end Sys2Proof.Tests
end

section
/-! PROOF. What each command does to the state, said once: it adds flags to STATUS, writes one run of bytes to OUT, and
replaces OUT_OFF, RESULT or predictor sets. `exec_eq` ties these effects to the model; later proofs cite it, not the loops. -/

namespace Sys2Proof.Machine

/-- A run of bytes listed from an offset on. -/
def Memory.setBytes : Memory → (off : Nat) → List Byte → Memory
  | m, _, [] => m
  | m, off, b :: bs => (m.set off b).setBytes (off + 1) bs

theorem Memory.wf_setBytes {m : Memory} (off : Nat) (bs : List Byte) (h : m.wf = true) :
    (m.setBytes off bs).wf = true := by
  induction bs generalizing m off with
  | nil => exact h
  | cons b bs ih => exact ih _ (Memory.wf_set _ _ _ h)

theorem Memory.below_setBytes {m : Memory} {off n : Nat} {bs : List Byte} (hfit : off + bs.length ≤ n)
    (h : m.below n = true) : (m.setBytes off bs).below n = true := by
  induction bs generalizing m off with
  | nil => exact h
  | cons b bs ih =>
    rw [List.length_cons] at hfit
    exact ih (by omega) (Memory.below_set _ _ (by omega) h)

theorem State.putBytes_eq (s : State) (off : Nat) (bs : List Byte) :
    s.putBytes off bs = { s with outMem := s.outMem.setBytes off bs } := by
  induction bs generalizing s off with
  | nil => rfl
  | cons b bs ih => rw [State.putBytes, ih]; rfl

/-- The bytes of a run of samples, each low byte first (R53). -/
def sampleBytes (vs : List Half) : List Byte := vs.flatMap fun v => [lowByte v, highByte v]

@[simp] theorem sampleBytes_length (vs : List Half) : (sampleBytes vs).length = 2 * vs.length := by
  simp [sampleBytes, List.length_flatMap, Nat.mul_comm]

theorem State.putHalves_eq (s : State) (off : Nat) (vs : List Half) :
    s.putHalves off vs = { s with outMem := s.outMem.setBytes off (sampleBytes vs) } := by
  induction vs generalizing s off with
  | nil => rfl
  | cons v vs ih => rw [State.putHalves, ih]; rfl

/-- What a command does: the flags it adds, the bytes it writes to OUT from `start` on, and what it replaces. -/
structure Effect where
  flags  : Word := 0#32
  start  : Nat := 0
  bytes  : List Byte := []
  outOff : Option Word := none
  result : Option Half := none
  ch0    : Option Predictor := none
  ch1    : Option Predictor := none

/-- The state an effect leaves. -/
def Effect.apply (e : Effect) (s : State) : State :=
  { s with
    status := s.status ||| e.flags
    outMem := s.outMem.setBytes e.start e.bytes
    outOff := e.outOff.getD s.outOff
    result := e.result.getD s.result
    ch0 := e.ch0.getD s.ch0
    ch1 := e.ch1.getD s.ch1 }

/-- The predictor set that an effect puts in a channel, if it does. -/
def Effect.ch (e : Effect) : Chan → Option Predictor
  | .ch0 => e.ch0
  | .ch1 => e.ch1

theorem Effect.ch_apply (e : Effect) (s : State) (c : Chan) : (e.apply s).ch c = (e.ch c).getD (s.ch c) := by
  cases c <;> rfl

/-- A flag and nothing else. -/
def Effect.flagOnly (f : Flag) : Effect := { flags := f.mask }

/-- Bytes written from `start` on, the output cursor left behind the last one. -/
def Effect.writing (flags : Word) (start : Nat) (bs : List Byte) : Effect :=
  { flags := flags, start := start, bytes := bs, outOff := some (BitVec.ofNat 32 (start + bs.length)) }

/-- Samples written from `start` on by a block decode that has reached the predictor sets `sets`; in mono `ch[1]` is left. -/
def Effect.decoding (stereo : Bool) (flags : Word) (start : Nat) (vs : List Half) (sets : Predictor × Predictor) : Effect :=
  { Effect.writing flags start (sampleBytes vs) with
    ch0 := some sets.1
    ch1 := if stereo then some sets.2 else none }

theorem Effect.apply_flagOnly (f : Flag) (s : State) : (Effect.flagOnly f).apply s = s.setFlag f := rfl

theorem Effect.apply_writing (flags : Word) (start : Nat) (bs : List Byte) (s : State) :
    (Effect.writing flags start bs).apply s = { s with
      status := s.status ||| flags
      outMem := s.outMem.setBytes start bs
      outOff := BitVec.ofNat 32 (start + bs.length) } := rfl

theorem Effect.apply_decoding (stereo : Bool) (flags : Word) (start : Nat) (vs : List Half) (sets : Predictor × Predictor)
    (s : State) : (Effect.decoding stereo flags start vs sets).apply s = { s with
      status := s.status ||| flags
      outMem := s.outMem.setBytes start (sampleBytes vs)
      outOff := BitVec.ofNat 32 (start + 2 * vs.length)
      ch0 := sets.1
      ch1 := if stereo then sets.2 else s.ch1 } := by
  rw [← sampleBytes_length]
  cases stereo <;> rfl

-- The A-law and pass-through commands.

/-- The effect of ALAW.DEC (R102, R174). -/
def alawEffect (s : State) : Effect :=
  if 2 * alawCount s ≤ s.outCap then .writing 0#32 0 (sampleBytes (alawSamples s))
  else .writing Flag.outovf.mask 0 (sampleBytes ((alawSamples s).take (s.outCap / 2)))

theorem alawSamples_length (s : State) : (alawSamples s).length = alawCount s := by simp [alawSamples]

theorem alawLoop_eq_emitAll (s : State) : alawLoop (alawCount s) 0 s = emitAll (alawSamples s) 0 s := by
  rw [alawLoop_eq _ _ _ (by simp [alawCount]), ← List.range_eq_range']
  rfl

theorem execAlawDec_eq (s : State) : execAlawDec s = .next ((alawEffect s).apply s) := by
  rw [execAlawDec, alawLoop_eq_emitAll, alawEffect]
  have hlen := alawSamples_length s
  split
  · rw [emitAll_fits _ _ _ (by omega), State.putHalves_eq, Effect.apply_writing, sampleBytes_length]
    simp [finish, State.setOutOff]
  · rw [emitAll_overflow _ _ _ (by omega) (by omega), State.putHalves_eq, Effect.apply_writing, sampleBytes_length,
      List.length_take_of_le (by omega)]
    rfl

/-- The effect of PASS (R140, R173, R174). -/
def passEffect (s : State) : Effect :=
  if s.inCap < regNat s.len then .flagOnly .inrange
  else if regNat s.len ≤ s.outCap then .writing 0#32 0 ((List.range' 0 (regNat s.len)).map s.inByte)
  else .writing Flag.outovf.mask 0 ((List.range' 0 s.outCap).map s.inByte)

theorem execPass_eq (s : State) : execPass s = .next ((passEffect s).apply s) := by
  rw [execPass, passEffect]
  split
  · rfl
  · split
    · rw [passLoop_fits _ _ _ (by omega) (by omega), State.putBytes_eq, Effect.apply_writing]
      simp [finish, State.setOutOff]
    · rw [passLoop_overflow _ _ _ (by omega) (by omega) (by omega), State.putBytes_eq, Effect.apply_writing]
      simp [finish, takeFault, State.setOutOff, State.setFlag]

-- The block decodes.

/-- The predictor sets after the first `k` samples of a block, read from its bytes alone; the second one has a meaning in a
stereo block only. -/
def setsAfter (rd : Nat → Byte) (stereo : Bool) (bs k : Nat) : Predictor × Predictor :=
  blockSets rd stereo bs k (headerSet rd stereo 1)

/-- What `blockSets` owes to the set it is given: its second component in a mono block, and nothing else. -/
theorem blockSets_eq_setsAfter (rd : Nat → Byte) (stereo : Bool) (bs k : Nat) (q : Predictor) :
    blockSets rd stereo bs k q =
      ((setsAfter rd stereo bs k).1, if stereo then (setsAfter rd stereo bs k).2 else q) := by
  apply Prod.ext
  · exact blockSets_first _ _ _ _ _ _
  · cases stereo with
    | false => exact blockSets_mono _ _ _ _
    | true => rfl

theorem State.blockReached_eq (s : State) (inOff bs outOff k : Nat) :
    s.blockReached inOff bs outOff k = { s with
      status := s.status ||| flagIf (headerClamps (s.blockAt inOff) (isStereo s)) .predclamp
      outMem := s.outMem.setBytes outOff (sampleBytes ((blockSamples (s.blockAt inOff) (isStereo s) bs).take k))
      ch0 := (setsAfter (s.blockAt inOff) (isStereo s) bs k).1
      ch1 := if isStereo s then (setsAfter (s.blockAt inOff) (isStereo s) bs k).2 else s.ch1 } := by
  rw [State.blockReached, State.putHalves_eq, blockSets_eq_setsAfter]
  rfl

/-- The effect of ADPCM.BLK (R121, R172 to R174). -/
def blkEffect (s : State) : Effect :=
  let rd := s.blockAt (regNat s.inOff)
  let clamp := flagIf (headerClamps rd (isStereo s)) .predclamp
  let k := (s.outCap - regNat s.outOff) / 2
  if ¬ channelsLegal s then .flagOnly .cfgerr
  else if s.blkBytes < headerSize (isStereo s) then .flagOnly .blkskip
  else if s.inCap < regNat s.inOff + s.blkBytes then .flagOnly .inrange
  else if regNat s.outOff + blockOutput (isStereo s) s.blkBytes ≤ s.outCap then
    .decoding (isStereo s) clamp (regNat s.outOff) (blockSamples rd (isStereo s) s.blkBytes)
      (setsAfter rd (isStereo s) s.blkBytes (2 * s.blkBytes))
  else
    .decoding (isStereo s) (clamp ||| Flag.outovf.mask) (regNat s.outOff)
      ((blockSamples rd (isStereo s) s.blkBytes).take k) (setsAfter rd (isStereo s) s.blkBytes k)

/-- A block of `bs` bytes has at most `2 * bs` samples. -/
theorem blockSamples_take_all {rd : Nat → Byte} {stereo : Bool} {bs : Nat} (h : headerSize stereo ≤ bs) :
    (blockSamples rd stereo bs).take (2 * bs) = blockSamples rd stereo bs := by
  have hlen := blockSamples_length rd stereo bs h
  rw [blockOutput] at hlen
  exact List.take_of_length_le (by omega)

theorem execAdpcmBlk_eq (s : State) : execAdpcmBlk s = .next ((blkEffect s).apply s) := by
  rw [execAdpcmBlk, blkEffect]
  by_cases hch : channelsLegal s
  · have hlen := blockSamples_length (s.blockAt (regNat s.inOff)) (isStereo s) s.blkBytes
    rw [if_pos hch, if_neg (not_not_intro hch)]
    have hcases := decodeBlock_cases (regNat s.inOff) (regNat s.blkSize) (regNat s.outOff) s
    rw [show clampBlock (regNat s.blockAlign) (regNat s.blkSize) = s.blkBytes from rfl] at hcases
    rcases hcases with
      ⟨hskip, h⟩ | ⟨hhead, hrange, h⟩ | ⟨hhead, hin, hfit, h⟩ | ⟨hhead, hin, hover, h⟩ <;> rw [h]
    · rw [if_pos hskip]
      simp [finish, State.setOutOff, Effect.apply_flagOnly, State.setFlag, regNat]
    · rw [if_neg (not_lt_of_ge hhead), if_pos hrange]
      rfl
    · rw [if_neg (not_lt_of_ge hhead), if_neg (not_lt_of_ge hin), if_pos hfit, Effect.apply_decoding, hlen hhead,
        State.blockReached_eq, blockSamples_take_all hhead]
      rfl
    · rw [if_neg (not_lt_of_ge hhead), if_neg (not_lt_of_ge hin), if_neg (not_le_of_gt hover), Effect.apply_decoding,
        List.length_take_of_le (by have := hlen hhead; omega), State.blockReached_eq]
      simp only [finish, takeFault, State.setFlag, State.setOutOff, BitVec.or_assoc]
  · rw [if_neg hch, if_pos hch]
    rfl

/-- The effect of ADPCM.DEC past its checks (R122, R174): skipped blocks, and none at all, leave the predictor sets alone. -/
def blocksEffect (s : State) : Effect :=
  let B := regNat s.blockAlign
  let P := blockOutput (isStereo s) B / 2
  let K := s.outCap / 2
  let trail := flagIf (decide (regNat s.len % B ≠ 0)) .traildrop
  if B < headerSize (isStereo s) ∨ s.blockCount = 0 then
    .writing (trail ||| flagIf (decide (s.blockCount ≠ 0)) .blkskip) 0 []
  else if s.blockCount * blockOutput (isStereo s) B ≤ s.outCap then
    .decoding (isStereo s) (trail ||| flagIf (s.clampsFrom B s.blockCount 0) .predclamp) 0
      (s.samplesFrom B s.blockCount 0)
      (setsAfter (s.blockAt ((s.blockCount - 1) * B)) (isStereo s) B (2 * B))
  else
    .decoding (isStereo s) (trail ||| flagIf (s.clampsFrom B (K / P + 1) 0) .predclamp ||| Flag.outovf.mask) 0
      ((s.samplesFrom B s.blockCount 0).take K)
      (setsAfter (s.blockAt (K / P * B)) (isStereo s) B (K % P))

/-- The effect of ADPCM.DEC (R122, R172, R173). -/
def decEffect (s : State) : Effect :=
  if ¬ channelsLegal s ∨ regNat s.blockAlign = 0 then .flagOnly .cfgerr
  else if s.inCap < regNat s.len then .flagOnly .inrange
  else blocksEffect s

/-- A block loop over blocks shorter than a header, or over none, only skips (R122). -/
theorem blockLoop_skips (B n k outOff : Nat) (s : State)
    (h : clampBlock (regNat s.blockAlign) B < headerSize (isStereo s) ∨ n = 0) :
    blockLoop B n k outOff s = .ok outOff { s with status := s.status ||| flagIf (decide (n ≠ 0)) .blkskip } := by
  induction n generalizing k s with
  | zero => simp [blockLoop, flagIf]
  | succ n ih =>
    have hshort := h.resolve_right (Nat.succ_ne_zero n)
    have hskip : decodeBlock (k * B) B outOff s = .ok outOff (s.setFlag .blkskip) := by
      rcases decodeBlock_cases (k * B) B outOff s with ⟨_, e⟩ | ⟨hhead, _⟩ | ⟨hhead, _⟩ | ⟨hhead, _⟩
      · exact e
      all_goals omega
    rw [blockLoop, hskip, Engine.andThen_ok, ih (k + 1) (s.setFlag .blkskip) (.inl hshort)]
    exact congrArg (fun w => Engine.ok outOff { s with status := w })
      (flagIf_or true (decide (n ≠ 0)) .blkskip s.status)

/-- The state in which ADPCM.DEC comes to its first block: TRAILDROP is set if trailing bytes were dropped (R122). -/
def State.trailDropped (s : State) : State :=
  { s with status := s.status ||| flagIf (decide (regNat s.len % regNat s.blockAlign ≠ 0)) .traildrop }

theorem decodeBlocks_eq_blockLoop (s : State) : decodeBlocks (regNat s.blockAlign) (regNat s.len) s =
    blockLoop (regNat s.blockAlign) s.blockCount 0 0 s.trailDropped := by
  rw [decodeBlocks, State.trailDropped]
  by_cases h : regNat s.len % regNat s.blockAlign = 0
  · simp [h, flagIf, State.blockCount]
  · simp [h, flagIf, State.blockCount, State.setFlag]

theorem finish_decodeBlocks_eq (s : State) (hin : regNat s.len ≤ s.inCap) :
    finish (decodeBlocks (regNat s.blockAlign) (regNat s.len) s) = .next ((blocksEffect s).apply s) := by
  have hdiv : (0 + s.blockCount) * regNat s.blockAlign ≤ s.inCap := by
    rw [Nat.zero_add]
    exact (Nat.div_mul_le_self _ _).trans hin
  have hlen := s.samplesFrom_length (B := regNat s.blockAlign) s.blockCount 0
  rw [decodeBlocks_eq_blockLoop, blocksEffect]
  by_cases hskip : regNat s.blockAlign < headerSize (isStereo s) ∨ s.blockCount = 0
  · have hclamp : clampBlock (regNat s.blockAlign) (regNat s.blockAlign) < headerSize (isStereo s) ∨ s.blockCount = 0 := by
      rwa [clampBlock_self]
    rw [if_pos hskip, blockLoop_skips _ _ _ _ s.trailDropped hclamp, Effect.apply_writing, ← BitVec.or_assoc]
    rfl
  obtain ⟨hhead, hn⟩ := not_or.mp hskip
  have hhead := Nat.le_of_not_lt hhead
  rw [if_neg hskip]
  by_cases hfit : s.blockCount * blockOutput (isStereo s) (regNat s.blockAlign) ≤ s.outCap
  · rw [if_pos hfit, blockLoop_fits (regNat s.blockAlign) _ _ _ s.trailDropped rfl hhead hdiv
        (by rw [Nat.zero_add]; exact hfit),
      State.putHalves_eq, Effect.apply_decoding, hlen hhead, ← BitVec.or_assoc]
    simp only [hn, if_false, blockSets_eq_setsAfter, Nat.zero_add]
    rfl
  · rw [if_neg hfit, blockLoop_overflow (regNat s.blockAlign) _ _ _ s.trailDropped rfl (Nat.pos_of_ne_zero hn) hhead hdiv
        (by rw [Nat.zero_add]; exact Nat.lt_of_not_le hfit),
      State.putHalves_eq, Effect.apply_decoding, List.length_take_of_le (by have := hlen hhead; omega),
      ← BitVec.or_assoc, ← BitVec.or_assoc]
    simp only [blockSets_eq_setsAfter, Nat.zero_add]
    rfl

theorem execAdpcmDec_eq (s : State) : execAdpcmDec s = .next ((decEffect s).apply s) := by
  rw [execAdpcmDec, decEffect]
  by_cases hch : channelsLegal s
  · by_cases hB : regNat s.blockAlign = 0
    · rw [if_neg (not_not_intro hch), if_pos hB, if_pos (.inr hB)]
      rfl
    · rw [if_neg (not_not_intro hch), if_neg hB, if_neg (not_or_intro (not_not_intro hch) hB)]
      split
      · rfl
      · exact finish_decodeBlocks_eq s (by omega)
  · rw [if_pos hch, if_pos (.inl hch)]
    rfl

-- Every command.

/-- The effect of ADPCM.NIB (R120). -/
def nibEffect (c : Chan) (nibble : Nibble) (s : State) : Effect :=
  { result := some (expandNibble (s.ch c) nibble).1
    ch0 := if c = .ch0 then some (expandNibble s.ch0 nibble).2 else none
    ch1 := if c = .ch1 then some (expandNibble s.ch1 nibble).2 else none }

theorem execAdpcmNib_eq (c : Chan) (nibble : Nibble) (s : State) :
    execAdpcmNib c nibble s = .next ((nibEffect c nibble s).apply s) := by
  rw [execAdpcmNib, nibbleExpand_eq]
  cases c <;> simp [nibEffect, Effect.apply, State.setCh, State.setResult, Memory.setBytes]

/-- The effect of a command. -/
def effect (i : Instr) (s : State) : Effect :=
  match i with
  | .alawDec => alawEffect s
  | .adpcmDec => decEffect s
  | .adpcmBlk => blkEffect s
  | .adpcmNib c nibble => nibEffect c nibble s
  | .pass => passEffect s
  | .dec =>
    match formatTagOf s.fmtTag with
    | .aLaw => alawEffect s
    | .adpcmMS => decEffect s
    | .linearPCM => passEffect s
    | .other => passEffect s

/-- Every command answers a next state, the one its effect leaves. -/
theorem exec_eq (i : Instr) (s : State) : exec i s = .next ((effect i s).apply s) := by
  cases i with
  | alawDec => exact execAlawDec_eq s
  | adpcmDec => exact execAdpcmDec_eq s
  | adpcmBlk => exact execAdpcmBlk_eq s
  | adpcmNib c nibble => exact execAdpcmNib_eq c nibble s
  | pass => exact execPass_eq s
  | dec =>
    simp only [exec, execDec, effect]
    cases formatTagOf s.fmtTag with
    | aLaw => exact execAlawDec_eq s
    | adpcmMS => exact execAdpcmDec_eq s
    | linearPCM => exact execPass_eq s
    | other => exact execPass_eq s

theorem eq_apply_of_exec {i : Instr} {s t : State} (h : exec i s = .next t) : t = (effect i s).apply s :=
  (Outcome_next_inj ((exec_eq i s).symm.trans h)).symm

end Sys2Proof.Machine
end

section
/-! PROOF. What every command's effect keeps: no reserved flag, one run of bytes inside OUT that ends at the cursor, table
pairs; and which fields which commands leave alone. -/

namespace Sys2Proof.Machine

/-- The offset at which a command starts to write (R31). -/
def outputStart : Instr → State → Nat
  | .adpcmBlk, s => regNat s.outOff
  | .alawDec, _ => 0
  | .adpcmDec, _ => 0
  | .adpcmNib _ _, _ => 0
  | .pass, _ => 0
  | .dec, _ => 0

theorem outputStart_wholeBuffer {i : Instr} (s : State) (h : wholeBuffer i = true) : outputStart i s = 0 := by
  cases i with
  | adpcmBlk => cases h
  | _ => rfl

/-- An effect on `s` that adds flags of R24 only, writes from `start` on inside OUT up to the cursor it leaves, and puts no
set that is no table pair in place of one that is. -/
structure Effect.Admissible (e : Effect) (s : State) (start : Nat) : Prop where
  flags_implemented : e.flags &&& ~~~statusBits = 0#32
  run : e.bytes = [] ∨
    e.start = start ∧ start + e.bytes.length ≤ s.outCap ∧ e.outOff = some (BitVec.ofNat 32 (start + e.bytes.length))
  pairs : ∀ c p, e.ch c = some p → (s.ch c).tablePair → p.tablePair

theorem implemented_or {a b : Word} (ha : a &&& ~~~statusBits = 0#32) (hb : b &&& ~~~statusBits = 0#32) :
    (a ||| b) &&& ~~~statusBits = 0#32 := by
  have hdistrib : (a ||| b) &&& ~~~statusBits = (a &&& ~~~statusBits) ||| (b &&& ~~~statusBits) := by
    ext k
    simp only [BitVec.getElem_and, BitVec.getElem_or, Bool.and_or_distrib_right]
  rw [hdistrib, ha, hb, BitVec.or_zero]

theorem implemented_mask (f : Flag) : f.mask &&& ~~~statusBits = 0#32 := by cases f <;> decide

theorem implemented_flagIf (b : Bool) (f : Flag) : flagIf b f &&& ~~~statusBits = 0#32 := by
  cases b
  · exact BitVec.zero_and
  · exact implemented_mask f

theorem Effect.admissible_flagOnly (f : Flag) (s : State) (start : Nat) : (Effect.flagOnly f).Admissible s start where
  flags_implemented := implemented_mask f
  run := .inl rfl
  pairs c p h := by cases c <;> cases h

theorem Effect.admissible_writing {flags : Word} {start : Nat} {bs : List Byte} {s : State}
    (hflags : flags &&& ~~~statusBits = 0#32) (hrun : bs = [] ∨ start + bs.length ≤ s.outCap) :
    (Effect.writing flags start bs).Admissible s start where
  flags_implemented := hflags
  run := hrun.imp_right fun h => ⟨rfl, h, rfl⟩
  pairs c p h := by cases c <;> cases h

theorem Effect.admissible_decoding {stereo : Bool} {flags : Word} {start : Nat} {vs : List Half}
    {sets : Predictor × Predictor} {s : State} (hflags : flags &&& ~~~statusBits = 0#32)
    (hrun : sampleBytes vs = [] ∨ start + (sampleBytes vs).length ≤ s.outCap)
    (hsets : sets.1.tablePair ∧ sets.2.tablePair) :
    (Effect.decoding stereo flags start vs sets).Admissible s start where
  flags_implemented := hflags
  run := hrun.imp_right fun h => ⟨rfl, h, rfl⟩
  pairs c p h _ := by
    cases c with
    | ch0 => cases h; exact hsets.1
    | ch1 =>
      cases stereo
      · cases h
      · cases h; exact hsets.2

/-- The samples that fit between `start` and the end of OUT stay inside it, or there are none. -/
theorem sampleBytes_take_inside (vs : List Half) (start cap : Nat) :
    sampleBytes (vs.take ((cap - start) / 2)) = [] ∨
      start + (sampleBytes (vs.take ((cap - start) / 2))).length ≤ cap := by
  rw [sampleBytes_length, List.length_take]
  by_cases h : (cap - start) / 2 = 0
  · rw [h]; exact .inl rfl
  · right; omega

-- The sets a block decode leaves are table pairs.

theorem headerSet_tablePair (rd : Nat → Byte) (stereo : Bool) (c : Nat) : (headerSet rd stereo c).tablePair :=
  ⟨predIndex (rd c).toNat, rfl, rfl⟩

/-- The expansion reads the coefficients and keeps them (R115 (e)). -/
theorem expandNibble_tablePair {p : Predictor} (n : Nibble) (h : p.tablePair) : (expandNibble p n).2.tablePair := h

theorem playSets_tablePair (cs : List (Chan × Nibble)) {p q : Predictor} (hp : p.tablePair) (hq : q.tablePair) :
    (playSets cs p q).1.tablePair ∧ (playSets cs p q).2.tablePair := by
  induction cs generalizing p q with
  | nil => exact ⟨hp, hq⟩
  | cons cn cs ih =>
    obtain ⟨c, n⟩ := cn
    cases c with
    | ch0 => exact ih (expandNibble_tablePair n hp) hq
    | ch1 => exact ih hp (expandNibble_tablePair n hq)

theorem setsAfter_tablePair (rd : Nat → Byte) (stereo : Bool) (bs k : Nat) :
    (setsAfter rd stereo bs k).1.tablePair ∧ (setsAfter rd stereo bs k).2.tablePair := by
  refine playSets_tablePair _ (headerSet_tablePair _ _ _) ?_
  cases stereo <;> exact headerSet_tablePair _ _ _

-- Each command's effect is admissible.

theorem alawEffect_admissible (s : State) : (alawEffect s).Admissible s 0 := by
  have hlen := alawSamples_length s
  unfold alawEffect
  split
  · exact Effect.admissible_writing BitVec.zero_and (.inr (by rw [sampleBytes_length]; omega))
  · exact Effect.admissible_writing (implemented_mask _) (sampleBytes_take_inside _ 0 _)

theorem passEffect_admissible (s : State) : (passEffect s).Admissible s 0 := by
  unfold passEffect
  split
  · exact Effect.admissible_flagOnly _ _ _
  · split
    · exact Effect.admissible_writing BitVec.zero_and (.inr (by simpa))
    · exact Effect.admissible_writing (implemented_mask _) (.inr (by simp))

theorem blkEffect_admissible (s : State) : (blkEffect s).Admissible s (regNat s.outOff) := by
  have hlen := blockSamples_length (s.blockAt (regNat s.inOff)) (isStereo s) s.blkBytes
  unfold blkEffect
  split_ifs with hch hskip hrange hfit
  · exact Effect.admissible_flagOnly _ _ _
  · exact Effect.admissible_flagOnly _ _ _
  · exact Effect.admissible_decoding (implemented_flagIf _ _)
      (.inr (by rw [sampleBytes_length]; omega)) (setsAfter_tablePair _ _ _ _)
  · exact Effect.admissible_decoding (implemented_or (implemented_flagIf _ _) (implemented_mask _))
      (sampleBytes_take_inside _ _ _) (setsAfter_tablePair _ _ _ _)
  · exact Effect.admissible_flagOnly _ _ _

theorem blocksEffect_admissible (s : State) : (blocksEffect s).Admissible s 0 := by
  have hlen := s.samplesFrom_length (B := regNat s.blockAlign) s.blockCount 0
  unfold blocksEffect
  dsimp only
  split_ifs with hskip hfit
  · exact Effect.admissible_writing (implemented_or (implemented_flagIf _ _) (implemented_flagIf _ _)) (.inl rfl)
  · refine Effect.admissible_decoding (implemented_or (implemented_flagIf _ _) (implemented_flagIf _ _))
      (.inr ?_) (setsAfter_tablePair _ _ _ _)
    rw [sampleBytes_length, hlen (by omega)]
    omega
  · exact Effect.admissible_decoding
      (implemented_or (implemented_or (implemented_flagIf _ _) (implemented_flagIf _ _)) (implemented_mask _))
      (sampleBytes_take_inside _ 0 _) (setsAfter_tablePair _ _ _ _)

theorem decEffect_admissible (s : State) : (decEffect s).Admissible s 0 := by
  unfold decEffect
  split_ifs
  · exact Effect.admissible_flagOnly _ _ _
  · exact Effect.admissible_flagOnly _ _ _
  · exact blocksEffect_admissible s

theorem nibEffect_admissible (c : Chan) (n : Nibble) (s : State) : (nibEffect c n s).Admissible s 0 where
  flags_implemented := BitVec.zero_and
  run := .inl rfl
  pairs d p h hs := by
    cases c <;> cases d <;> cases h <;> exact expandNibble_tablePair n hs

theorem formatTagOf_ne_adpcmMS {code : BitVec 2} (h : code ≠ 2#2) : formatTagOf code ≠ .adpcmMS := by
  revert code
  decide

/-- DEC's effect is that of the command its tag selects (R141). -/
theorem effect_dec_cases (s : State) : effect .dec s = alawEffect s ∨ effect .dec s = passEffect s ∨
    (s.fmtTag = 2#2 ∧ effect .dec s = decEffect s) := by
  by_cases h : s.fmtTag = 2#2
  · exact .inr (.inr ⟨h, by rw [effect, h]; rfl⟩)
  · rw [effect]
    cases hf : formatTagOf s.fmtTag with
    | aLaw => exact .inl rfl
    | adpcmMS => exact absurd hf (formatTagOf_ne_adpcmMS h)
    | linearPCM => exact .inr (.inl rfl)
    | other => exact .inr (.inl rfl)

theorem effect_admissible (i : Instr) (s : State) : (effect i s).Admissible s (outputStart i s) := by
  cases i with
  | alawDec => exact alawEffect_admissible s
  | adpcmDec => exact decEffect_admissible s
  | adpcmBlk => exact blkEffect_admissible s
  | adpcmNib c n => exact nibEffect_admissible c n s
  | pass => exact passEffect_admissible s
  | dec =>
    rcases effect_dec_cases s with h | h | ⟨_, h⟩ <;> rw [h]
    · exact alawEffect_admissible s
    · exact passEffect_admissible s
    · exact decEffect_admissible s

-- What an admissible effect keeps.

theorem Effect.Admissible.inv_apply {e : Effect} {s : State} {start : Nat} (he : e.Admissible s start) (hs : s.Inv) :
    (e.apply s).Inv := by
  obtain ⟨hstatus, hinWf, houtWf, hinBelow, houtBelow⟩ := hs
  refine ⟨implemented_or hstatus he.flags_implemented, hinWf, Memory.wf_setBytes _ _ houtWf, hinBelow, ?_⟩
  show (s.outMem.setBytes e.start e.bytes).below s.outCap = true
  rcases he.run with hnone | ⟨hstart, hfit, _⟩
  · rw [hnone]; exact houtBelow
  · rw [hstart]; exact Memory.below_setBytes hfit houtBelow

theorem Effect.Admissible.tablePair_apply {e : Effect} {s : State} {start : Nat} (he : e.Admissible s start) {c : Chan}
    (h : (s.ch c).tablePair) : ((e.apply s).ch c).tablePair := by
  rw [Effect.ch_apply]
  cases hc : e.ch c with
  | none => exact h
  | some p => exact he.pairs c p hc h

theorem Effect.outByte_apply (e : Effect) (s : State) (a : Nat) :
    (e.apply s).outByte a = (s.putBytes e.start e.bytes).outByte a := by
  rw [State.putBytes_eq]
  rfl

/-- OUT changes between where the command starts and the cursor it leaves, nowhere else (R31). -/
theorem Effect.Admissible.outSameOutside {e : Effect} {s : State} {start : Nat} (he : e.Admissible s start) :
    OutSameOutside s (e.apply s) start (regNat (e.apply s).outOff) := by
  intro a ha
  rw [Effect.outByte_apply]
  rcases he.run with hnone | ⟨hstart, hfit, hoff⟩
  · rw [hnone]; rfl
  · have hcap : s.outCap < 2 ^ 31 := s.params.outCap.isLt
    have hcursor : regNat (e.apply s).outOff = start + e.bytes.length := by
      show (e.outOff.getD s.outOff).toNat = _
      rw [hoff, Option.getD_some, BitVec.toNat_ofNat, Nat.mod_eq_of_lt (by omega)]
    rw [hcursor] at ha
    exact State.outByte_putBytes_other _ _ _ (by omega)

-- Which fields a command leaves alone.

theorem Effect.sameHostSide_apply (e : Effect) (s : State) : SameHostSide s (e.apply s) :=
  ⟨rfl, rfl, rfl, rfl, rfl, rfl, rfl, rfl, rfl, rfl, rfl⟩

theorem alawEffect_leaves (s : State) :
    (alawEffect s).result = none ∧ (alawEffect s).ch0 = none ∧ (alawEffect s).ch1 = none := by
  unfold alawEffect
  split <;> exact ⟨rfl, rfl, rfl⟩

theorem passEffect_leaves (s : State) :
    (passEffect s).result = none ∧ (passEffect s).ch0 = none ∧ (passEffect s).ch1 = none := by
  unfold passEffect
  split_ifs <;> exact ⟨rfl, rfl, rfl⟩

theorem blkEffect_leaves (s : State) :
    (blkEffect s).result = none ∧ (isStereo s = false → (blkEffect s).ch1 = none) := by
  unfold blkEffect
  split_ifs <;> refine ⟨rfl, fun h => ?_⟩ <;> simp [h, Effect.flagOnly, Effect.decoding]

theorem decEffect_leaves (s : State) :
    (decEffect s).result = none ∧ (isStereo s = false → (decEffect s).ch1 = none) := by
  unfold decEffect blocksEffect
  dsimp only
  split_ifs <;> refine ⟨rfl, fun h => ?_⟩ <;> simp [h, Effect.flagOnly, Effect.writing, Effect.decoding]

theorem effect_result {i : Instr} (s : State) (h : ∀ c n, i ≠ .adpcmNib c n) : (effect i s).result = none := by
  cases i with
  | alawDec => exact (alawEffect_leaves s).1
  | adpcmDec => exact (decEffect_leaves s).1
  | adpcmBlk => exact (blkEffect_leaves s).1
  | adpcmNib c n => exact absurd rfl (h c n)
  | pass => exact (passEffect_leaves s).1
  | dec =>
    rcases effect_dec_cases s with h | h | ⟨_, h⟩ <;> rw [h]
    · exact (alawEffect_leaves s).1
    · exact (passEffect_leaves s).1
    · exact (decEffect_leaves s).1

/-- The commands that are no ADPCM decode leave both predictor sets (R104, R140, R141). -/
theorem effect_sets_none {i : Instr} {s : State} (h : i = .alawDec ∨ i = .pass ∨ (i = .dec ∧ s.fmtTag ≠ 2#2)) :
    (effect i s).ch0 = none ∧ (effect i s).ch1 = none := by
  rcases h with rfl | rfl | ⟨rfl, htag⟩
  · exact (alawEffect_leaves s).2
  · exact (passEffect_leaves s).2
  · rcases effect_dec_cases s with h | h | ⟨h, _⟩
    · rw [h]; exact (alawEffect_leaves s).2
    · rw [h]; exact (passEffect_leaves s).2
    · exact absurd h htag

/-- No effect is read off STATUS (R24). -/
theorem effect_status (i : Instr) (s : State) (x : Word) : effect i { s with status := x } = effect i s := by
  cases i <;> rfl

/-- No effect of a block decode is read off `ch[1]` (R127). -/
theorem effect_ch1 {i : Instr} (s : State) (q : Predictor) (h : i = .adpcmBlk ∨ i = .adpcmDec) :
    effect i { s with ch1 := q } = effect i s := by
  rcases h with rfl | rfl <;> rfl

-- The obligations about commands.

/-- Settles O31: the effect of a command has no field for what the host alone writes. -/
theorem commandFrame : Obligations.CommandFrame := by
  intro i s t h
  rw [eq_apply_of_exec h]
  refine ⟨Effect.sameHostSide_apply _ _, fun hi => ?_, fun hi => ?_⟩
  · show (effect i s).result.getD s.result = s.result
    rw [effect_result s hi, Option.getD_none]
  · obtain ⟨h0, h1⟩ := effect_sets_none hi
    show (effect i s).ch0.getD s.ch0 = s.ch0 ∧ (effect i s).ch1.getD s.ch1 = s.ch1
    rw [h0, h1]
    exact ⟨rfl, rfl⟩

/-- Settles O32: a command writes one run of bytes, from its start to the cursor it leaves. -/
theorem commandWritesOnlyItsOutput : Obligations.CommandWritesOnlyItsOutput := by
  intro i s t h
  rw [eq_apply_of_exec h]
  have hout := (effect_admissible i s).outSameOutside
  refine ⟨fun hi => ?_, ?_, ?_⟩
  · rwa [outputStart_wholeBuffer s hi] at hout
  · rintro rfl
    exact hout
  · rintro ⟨c, n, rfl⟩
    exact ⟨rfl, rfl, BitVec.or_zero⟩

/-- Settles O33: a mono block decode's effect neither holds a set for `ch[1]` nor is read off it. -/
theorem monoDecodeIgnoresChannelOne : Obligations.MonoDecodeIgnoresChannelOne := by
  intro i s q hi hmono
  have hst : isStereo s = false := by rw [isStereo, hmono]; rfl
  have hch1 : (effect i s).ch1 = none := by
    rcases hi with rfl | rfl
    · exact (blkEffect_leaves s).2 hst
    · exact (decEffect_leaves s).2 hst
  refine ⟨_, exec_eq i s, ?_, ?_⟩
  · show (effect i s).ch1.getD s.ch1 = s.ch1
    rw [hch1, Option.getD_none]
  · rw [exec_eq, effect_ch1 s q hi]
    simp only [Effect.apply, hch1, Option.getD_none]

/-- Settles O34: an effect adds its flags to STATUS. -/
theorem commandsNeverClearFlags : Obligations.CommandsNeverClearFlags := by
  intro i s t h
  rw [eq_apply_of_exec h]
  show s.status &&& (s.status ||| (effect i s).flags) = s.status
  ext k
  rw [BitVec.getElem_and, BitVec.getElem_or]
  exact inf_sup_self

/-- Settles O35: the flags added are those of the effect, which is not read off STATUS. -/
theorem commandsNeverReadStatus : Obligations.CommandsNeverReadStatus := by
  intro i s x
  refine ⟨_, (effect i s).flags, exec_eq i s, rfl, ?_⟩
  rw [exec_eq, effect_status]
  rfl

end Sys2Proof.Machine
end

section
/-! PROOF. What one access of the host does, said once (`HostEffect`), and the obligations about steps and registers. -/

namespace Sys2Proof.Machine

-- One step.

theorem step_eq_hostAccess {s : State} {op : HostOp} {rest : List HostOp} (h : s.host = op :: rest) :
    step s = hostAccess op { s with host := rest } := by
  rw [step, hostTurn, h]

/-- With no access pending a step changes nothing (R184). -/
theorem step_idle {s : State} (h : s.host = []) : step s = .next s := by
  rw [step, hostTurn, h]

theorem regAccessOk_iff (width : AccessWidth) (off : Nat) :
    regAccessOk width off = true ↔ width = .word ∧ off % 4 = 0 ∧ off < 0x80 := by
  simp [regAccessOk, and_assoc]

/-- An offset that holds a register is that register's own. -/
theorem eq_regOffset_of_regAt {off : Nat} {r : Reg} (h : regAt off = some r) : off = regOffset r := by
  have := List.find?_some h
  exact (beq_iff_eq.mp this).symm

theorem runCommand_legal {w : Word} {i : Instr} (h : decode w = .ok i) (s : State) : runCommand w s = exec i s := by
  rw [runCommand, h]

theorem runCommand_illegal {w : Word} {e : DecodeError} (h : decode w = .error e) (s : State) :
    runCommand w s = .next (s.setFlag .illcmd) := by
  rw [runCommand, h]
  rfl

theorem hostRegWrite_hole {off : Nat} (h : regAt off = none) (v : Word) (s : State) : hostRegWrite off v s = .next s := by
  rw [hostRegWrite, h]

theorem hostRegWrite_register {r : Reg} (hr : r ≠ .cmd) (v : Word) (s : State) :
    hostRegWrite (regOffset r) v s = .next (writeReg r v s) := by
  simp only [hostRegWrite, regAt_regOffset]

/-- Every next state an access of the host can answer, the access itself consumed. -/
inductive HostEffect (s : State) : HostOp → State → Prop
  | command (w : Word) (i : Instr) (legal : decode w = .ok i) :
      HostEffect s (.regWrite .word 0x00 w) ((effect i s).apply s)
  | illegal (w : Word) (e : DecodeError) (illegal : decode w = .error e) :
      HostEffect s (.regWrite .word 0x00 w) (s.setFlag .illcmd)
  | register (r : Reg) (v : Word) (plain : r ≠ .cmd) : HostEffect s (.regWrite .word (regOffset r) v) (writeReg r v s)
  | hole (off : Nat) (v : Word) (empty : regAt off = none) : HostEffect s (.regWrite .word off v) s
  | regRead (off : Nat) : HostEffect s (.regRead .word off) { s with readData := regReadValue off s }
  | inWrite (off : Nat) (b : Byte) (inside : off < s.inCap) : HostEffect s (.inWrite off b) (s.putIn off b)
  | inRead (off : Nat) : HostEffect s (.inRead off) { s with readData := (s.inByte off).setWidth 32 }
  | outWrite (off : Nat) (b : Byte) (inside : off < s.outCap) : HostEffect s (.outWrite off b) (s.putOut off b)
  | outRead (off : Nat) : HostEffect s (.outRead off) { s with readData := (s.outByte off).setWidth 32 }
  | reset : HostEffect s .reset (platformReset s)

theorem hostEffect_regWrite (s : State) (off : Nat) (v : Word) :
    ∃ t, hostRegWrite off v s = .next t ∧ HostEffect s (.regWrite .word off v) t := by
  cases hr : regAt off with
  | none => exact ⟨_, hostRegWrite_hole hr v s, .hole off v hr⟩
  | some r =>
    obtain rfl := eq_regOffset_of_regAt hr
    by_cases hcmd : r = .cmd
    · subst hcmd
      cases hd : decode v with
      | ok i => exact ⟨_, (runCommand_legal hd s).trans (exec_eq i s), .command v i hd⟩
      | error e => exact ⟨_, runCommand_illegal hd s, .illegal v e hd⟩
    · exact ⟨_, hostRegWrite_register hcmd v s, .register r v hcmd⟩

/-- A well-formed access answers a next state. -/
theorem hostAccess_of_wellFormed {op : HostOp} {s : State} (h : op.wellFormed s.params = true) :
    ∃ t, hostAccess op s = .next t ∧ HostEffect s op t := by
  cases op with
  | regWrite width off v =>
    obtain ⟨rfl, _⟩ := (regAccessOk_iff _ _).mp h
    obtain ⟨t, ht, heff⟩ := hostEffect_regWrite s off v
    exact ⟨t, (if_pos h).trans ht, heff⟩
  | regRead width off =>
    obtain ⟨rfl, _⟩ := (regAccessOk_iff _ _).mp h
    exact ⟨_, if_pos h, .regRead off⟩
  | inWrite off b => exact ⟨_, if_pos (of_decide_eq_true h), .inWrite off b (of_decide_eq_true h)⟩
  | inRead off => exact ⟨_, if_pos (of_decide_eq_true h), .inRead off⟩
  | outWrite off b => exact ⟨_, if_pos (of_decide_eq_true h), .outWrite off b (of_decide_eq_true h)⟩
  | outRead off => exact ⟨_, if_pos (of_decide_eq_true h), .outRead off⟩
  | reset => exact ⟨_, rfl, .reset⟩

/-- An access that is not well formed answers no next state (R45, R51, R52). -/
theorem wellFormed_of_hostAccess {op : HostOp} {s t : State} (h : hostAccess op s = .next t) :
    op.wellFormed s.params = true := by
  by_contra hw
  cases op with
  | regWrite width off v => exact nomatch h.symm.trans (if_neg hw)
  | regRead width off => exact nomatch h.symm.trans (if_neg hw)
  | inWrite off b => exact nomatch h.symm.trans (if_neg (mt decide_eq_true hw))
  | inRead off => exact nomatch h.symm.trans (if_neg (mt decide_eq_true hw))
  | outWrite off b => exact nomatch h.symm.trans (if_neg (mt decide_eq_true hw))
  | outRead off => exact nomatch h.symm.trans (if_neg (mt decide_eq_true hw))
  | reset => exact hw rfl

/-- Everything a step that answers a next state can do: idle, or one access of the host. -/
theorem step_cases {s t : State} (h : step s = .next t) :
    (s.host = [] ∧ t = s) ∨ ∃ op rest, s.host = op :: rest ∧ HostEffect { s with host := rest } op t := by
  cases hh : s.host with
  | nil => exact .inl ⟨rfl, (Outcome_next_inj ((step_idle hh).symm.trans h)).symm⟩
  | cons op rest =>
    rw [step_eq_hostAccess hh] at h
    obtain ⟨u, hu, heff⟩ := hostAccess_of_wellFormed (wellFormed_of_hostAccess h)
    obtain rfl := Outcome_next_inj (hu.symm.trans h)
    exact .inr ⟨op, rest, rfl, heff⟩

/-- Settles O7: an access answers a next state when it is well formed and not otherwise; the checks fail one by one. -/
theorem stepStopsOnlyOutsideTheModel : Obligations.StepStopsOnlyOutsideTheModel := by
  refine ⟨fun s => ⟨fun ⟨t, ht⟩ op rest hh => ?_, fun hwf => ?_⟩, fun s width off v rest hbad => ?_,
    fun s off b rest => ?_⟩
  · rw [step_eq_hostAccess hh] at ht
    exact wellFormed_of_hostAccess (s := { s with host := rest }) ht
  · cases hh : s.host with
    | nil => exact ⟨s, step_idle hh⟩
    | cons op rest =>
      obtain ⟨t, ht, _⟩ := hostAccess_of_wellFormed (s := { s with host := rest }) (hwf op rest hh)
      exact ⟨t, (step_eq_hostAccess hh).trans ht⟩
  · have hrefuse : ¬ regAccessOk width off = true := by
      rw [regAccessOk_iff]
      rintro ⟨hword, halign, hbelow⟩
      have := hbad.resolve_left (not_not_intro hword)
      omega
    exact ⟨fun hh => (step_eq_hostAccess hh).trans (if_neg hrefuse),
      fun hh => (step_eq_hostAccess hh).trans (if_neg hrefuse)⟩
  · exact ⟨fun h hh => (step_eq_hostAccess hh).trans (if_neg (not_lt_of_ge h)),
      fun h hh => (step_eq_hostAccess hh).trans (if_neg (not_lt_of_ge h)),
      fun h hh => (step_eq_hostAccess hh).trans (if_neg (not_lt_of_ge h)),
      fun h hh => (step_eq_hostAccess hh).trans (if_neg (not_lt_of_ge h))⟩

/-- Settles O5: CMD lies at offset 0, and a legal word there runs its command. -/
theorem stepRunsDecodedCommand : Obligations.StepRunsDecodedCommand := by
  have hrun : ∀ (s : State) (w : Word) (i : Instr) (rest : List HostOp),
      s.host = .regWrite .word 0x00 w :: rest → decode w = .ok i → step s = exec i { s with host := rest } := by
    intro s w i rest hh hd
    rw [step_eq_hostAccess hh]
    exact runCommand_legal hd _
  refine ⟨hrun, fun s w i hd => ?_, fun s => step_idle⟩
  have hword : BitVec.ofNat 32 (w.toNat % 2 ^ 32) = w := by
    rw [Nat.mod_eq_of_lt w.isLt, BitVec.ofNat_toNat, BitVec.setWidth_eq]
  refine hrun (s.withFetchWord 32 w.toNat) w i s.host ?_ hd
  rw [State.withFetchWord, hword]
  rfl

-- Register writes.

theorem State.ch_setCh (s : State) (c d : Chan) (p : Predictor) :
    (s.setCh c p).ch d = if d = c then p else s.ch d := by
  split
  · next h => rw [h, State.ch_setCh_same]
  · next h => exact State.ch_setCh_other s h p

/-- What a register write leaves alone, whatever the register (R22, R57). -/
theorem writeReg_frame (r : Reg) (v : Word) (s : State) :
    (writeReg r v s).params = s.params ∧ (writeReg r v s).inMem = s.inMem ∧ (writeReg r v s).outMem = s.outMem ∧
    (writeReg r v s).epoch = s.epoch ∧ (writeReg r v s).host = s.host ∧ (writeReg r v s).readData = s.readData := by
  cases r with
  | pred c => rw [writeReg, selectCoeff_eq]; split <;> simp
  | delta c => simp [writeReg]
  | s1 c => simp [writeReg]
  | s2 c => simp [writeReg]
  | _ => exact ⟨rfl, rfl, rfl, rfl, rfl, rfl⟩

theorem implemented_clear {a : Word} (h : a &&& ~~~statusBits = 0#32) (w : Word) :
    (a &&& w) &&& ~~~statusBits = 0#32 := by
  rw [BitVec.and_assoc, BitVec.and_comm w, ← BitVec.and_assoc, h, BitVec.zero_and]

theorem status_writeReg_implemented {s : State} (h : s.status &&& ~~~statusBits = 0#32) (r : Reg) (v : Word) :
    (writeReg r v s).status &&& ~~~statusBits = 0#32 := by
  cases r with
  | status => exact implemented_clear h _
  | pred c =>
    rw [writeReg, selectCoeff_eq, State.status_setCh]
    split
    · exact implemented_or h (implemented_mask _)
    · exact h
  | delta c => rwa [writeReg, State.status_setCh]
  | s1 c => rwa [writeReg, State.status_setCh]
  | s2 c => rwa [writeReg, State.status_setCh]
  | _ => exact h

theorem State.Inv.writeReg {s : State} (h : s.Inv) (r : Reg) (v : Word) : (writeReg r v s).Inv := by
  obtain ⟨hstatus, hmem⟩ := h
  obtain ⟨hparams, hin, hout, _⟩ := writeReg_frame r v s
  refine ⟨status_writeReg_implemented hstatus r v, ?_⟩
  rw [State.inCap, State.outCap, hparams, hin, hout]
  exact hmem

theorem tablePair_setCh {s : State} {c d : Chan} {p : Predictor} (hp : d = c → p.tablePair) (h : (s.ch d).tablePair) :
    ((s.setCh c p).ch d).tablePair := by
  rw [State.ch_setCh]
  split
  · next e => exact hp e
  · exact h

theorem tablePair_selectCoeff_same (c : Chan) (v : Nat) (s : State) : ((selectCoeff c v s).ch c).tablePair := by
  rw [selectCoeff_eq, State.ch_setCh_same]
  exact ⟨predIndex v, rfl, rfl⟩

theorem tablePair_writeReg {s : State} {d : Chan} (r : Reg) (v : Word) (h : (s.ch d).tablePair) :
    ((writeReg r v s).ch d).tablePair := by
  have hkeep : ∀ {c : Chan} {p : Predictor}, p.coeff1 = (s.ch c).coeff1 → p.coeff2 = (s.ch c).coeff2 →
      ((s.setCh c p).ch d).tablePair := fun h1 h2 =>
    tablePair_setCh (fun e => by subst e; rwa [Predictor.tablePair, h1, h2]) h
  cases r with
  | status => rw [writeReg, State.ch_clearFlags]; exact h
  | pred c =>
    by_cases e : c = d
    · subst e; exact tablePair_selectCoeff_same _ _ _
    · rw [writeReg, selectCoeff_eq, State.ch_setCh_other _ (Ne.symm e)]
      split <;> simpa using h
  | delta c => exact hkeep rfl rfl
  | s1 c => exact hkeep rfl rfl
  | s2 c => exact hkeep rfl rfl
  | _ => cases d <;> exact h

-- What every step keeps.

theorem resetWith_inv (p : Params) (epoch : Nat) : (State.resetWith p epoch).Inv :=
  ⟨BitVec.zero_and, rfl, rfl, rfl, rfl⟩

theorem HostEffect.inv {s t : State} {op : HostOp} (heff : HostEffect s op t) (h : s.Inv) : t.Inv := by
  cases heff with
  | command w i => exact (effect_admissible i s).inv_apply h
  | illegal =>
    obtain ⟨hstatus, hmem⟩ := h
    exact ⟨implemented_or hstatus (implemented_mask _), hmem⟩
  | register r v => exact h.writeReg r v
  | inWrite off b inside =>
    obtain ⟨hstatus, hinWf, houtWf, hinBelow, houtBelow⟩ := h
    exact ⟨hstatus, Memory.wf_set _ _ _ hinWf, houtWf, Memory.below_set _ _ inside hinBelow, houtBelow⟩
  | outWrite off b inside =>
    obtain ⟨hstatus, hinWf, houtWf, hinBelow, houtBelow⟩ := h
    exact ⟨hstatus, hinWf, Memory.wf_set _ _ _ houtWf, hinBelow, Memory.below_set _ _ inside houtBelow⟩
  | reset => exact resetWith_inv s.params (s.epoch + 1)
  | _ => exact h

theorem HostEffect.params {s t : State} {op : HostOp} (heff : HostEffect s op t) : t.params = s.params := by
  cases heff with
  | register r v => exact (writeReg_frame r v s).1
  | _ => rfl

theorem HostEffect.tablePair {s t : State} {op : HostOp} (heff : HostEffect s op t) (hop : op ≠ .reset) {c : Chan}
    (h : (s.ch c).tablePair) : (t.ch c).tablePair := by
  cases heff with
  | command w i => exact (effect_admissible i s).tablePair_apply h
  | register r v => exact tablePair_writeReg r v h
  | reset => exact absurd rfl hop
  | _ => cases c <;> exact h

/-- Settles O48: a reset leaves STATUS 0 and both lists of written bytes empty. -/
theorem resetMeetsInvariant : Obligations.ResetMeetsInvariant := fun p epoch =>
  ⟨resetWith_inv p epoch, resetWith_inv Config.params 0⟩

/-- Settles O49, by the cases of a step: STATUS gains implemented flags only, and every write lies inside its space. -/
theorem stepKeepsInvariant : Obligations.StepKeepsInvariant := by
  intro s t hs h
  rcases step_cases h with ⟨_, rfl⟩ | ⟨op, rest, _, heff⟩
  · exact hs
  · exact heff.inv hs

/-- Settles O51, by the cases of a step: none has a parameter to write. -/
theorem parametersNeverChange : Obligations.ParametersNeverChange := by
  intro s t h
  rcases step_cases h with ⟨_, rfl⟩ | ⟨op, rest, _, heff⟩
  · rfl
  · exact heff.params

/-- Settles O50, by the cases of a step; a write to CHn_PRED selects a pair of the tables (R112). -/
theorem tablePairsPersist : Obligations.TablePairsPersist := by
  refine ⟨fun s t c hreset hpair h => ?_, fun s t c v rest hh h => ?_⟩
  · rcases step_cases h with ⟨_, rfl⟩ | ⟨op, rest, hh, heff⟩
    · exact hpair
    · refine heff.tablePair (fun e => hreset rest (e ▸ hh)) ?_
      cases c <;> exact hpair
  · obtain rfl := Outcome_next_inj ((step_regWrite hh nofun).symm.trans h)
    exact tablePair_selectCoeff_same _ _ _

-- Register reads and writes, one by one.

/-- The word offsets below 0x80 that hold no register (R22, R45). -/
def regHoles : List Nat := [0x30, 0x34, 0x38, 0x3C, 0x58, 0x5C, 0x78, 0x7C]

theorem regAt_hole : ∀ off ∈ regHoles, regAt off = none := by decide

theorem regReadValue_regOffset (r : Reg) (s : State) : regReadValue (regOffset r) s = readReg s r := by
  rw [regReadValue, regAt_regOffset]

theorem regReadValue_hole {off : Nat} (h : off ∈ regHoles) (s : State) : regReadValue off s = 0#32 := by
  rw [regReadValue, regAt_hole off h]

theorem step_regWrite_hole {s : State} {off : Nat} {v : Word} {rest : List HostOp}
    (h : s.host = .regWrite .word off v :: rest) (hoff : off ∈ regHoles) : step s = .next { s with host := rest } := by
  have hok : ∀ o ∈ regHoles, regAccessOk .word o = true := by decide
  rw [step_eq_hostAccess h, hostAccess, if_pos (hok off hoff), hostRegWrite_hole (regAt_hole off hoff)]

/-- Settles O41: read-only registers store nothing, and holes hold nothing. -/
theorem readOnlyWritesIgnored : Obligations.ReadOnlyWritesIgnored := by
  intro s off v rest hh hoff
  rcases hoff with hreadOnly | hhole
  · simp only [List.mem_cons, List.not_mem_nil, or_false] at hreadOnly
    rcases hreadOnly with rfl | rfl | rfl | rfl | rfl | rfl | rfl
    · exact step_regWrite (r := .result) hh nofun
    · exact step_regWrite (r := .inCap) hh nofun
    · exact step_regWrite (r := .outCap) hh nofun
    · exact step_regWrite (r := .coeff1 .ch0) hh nofun
    · exact step_regWrite (r := .coeff2 .ch0) hh nofun
    · exact step_regWrite (r := .coeff1 .ch1) hh nofun
    · exact step_regWrite (r := .coeff2 .ch1) hh nofun
  · exact step_regWrite_hole hh hhole

/-- Settles O42: STATUS keeps the bits written 0. -/
theorem statusWriteOneToClear : Obligations.StatusWriteOneToClear := by
  intro s v rest hh
  refine ⟨_, step_regWrite (r := .status) hh nofun, fun k => ?_, rfl⟩
  rw [writeReg, State.status_clearFlags, BitVec.getLsbD_and, BitVec.getLsbD_not]
  by_cases hk : k < 32
  · simp [hk]
  · simp [BitVec.getLsbD_of_ge _ _ (Nat.le_of_not_lt hk)]

/-- Settles O46: what a reset leaves, field by field. -/
theorem platformResetClearsRegisters : Obligations.PlatformResetClearsRegisters := by
  intro s rest hh
  exact ⟨_, step_eq_hostAccess hh, rfl, rfl, rfl, rfl, rfl, rfl, rfl, rfl, rfl, rfl, rfl⟩

/-- The bits of STATUS that a read returns are the seven of R24. -/
theorem statusBits_getLsbD (k : Nat) : statusBits.getLsbD k = decide (k ∈ [0, 1, 2, 3, 8, 9, 10]) := by
  by_cases hk : k < 32
  · have hall : ∀ k < 32, statusBits.getLsbD k = decide (k ∈ [0, 1, 2, 3, 8, 9, 10]) := by decide
    exact hall k hk
  · rw [BitVec.getLsbD_of_ge _ _ (Nat.le_of_not_lt hk), eq_comm, decide_eq_false_iff_not]
    simp only [List.mem_cons, List.not_mem_nil, or_false]
    omega

theorem widen_toInt (h : Half) : (widen h).toInt = h.toInt := BitVec.toInt_signExtend_of_le (by decide)

/-- A capacity fits a register. -/
theorem cap_toNat (cap : Cap) : (BitVec.ofNat 32 cap.val).toNat = cap.val := by
  have := cap.isLt
  rw [BitVec.toNat_ofNat, Nat.mod_eq_of_lt (by omega)]

/-- Settles O43: the offset of each clause is a register's or a hole. -/
theorem registerReadsReturn : Obligations.RegisterReadsReturn := by
  intro s off rest hh halign hbelow
  have hread : ∀ r, off = regOffset r → regReadValue off { s with host := rest } = readReg { s with host := rest } r :=
    fun r e => e ▸ regReadValue_regOffset r _
  refine ⟨_, step_regRead hh halign hbelow, fun hzero => ?_, fun e k => ?_, fun e => ?_, hread .channels,
    hread .blockAlign, hread .len, hread .inOff, hread .blkSize, hread .outOff,
    fun e => ?_, fun e => ?_, fun e => ?_, fun c base hbase => ?_⟩
  · rcases List.mem_append.mp (show off ∈ [0x00, 0x40, 0x60] ++ regHoles from hzero) with hreg | hhole
    · simp only [List.mem_cons, List.not_mem_nil, or_false] at hreg
      rcases hreg with e | e | e
      · exact hread .cmd e
      · exact hread (.pred .ch0) e
      · exact hread (.pred .ch1) e
    · exact regReadValue_hole hhole _
  · rw [hread .status e, readReg, State.statusRead, BitVec.getLsbD_and, statusBits_getLsbD]
  · rw [hread .fmtTag e]
    exact BitVec.toNat_setWidth_of_le (by decide)
  · rw [hread .result e]
    exact widen_toInt _
  · rw [hread .inCap e]
    exact cap_toNat _
  · rw [hread .outCap e]
    exact cap_toNat _
  · obtain rfl : base = chanBase c := by rw [hbase]; cases c <;> rfl
    refine ⟨hread (.coeff1 c), hread (.coeff2 c), hread (.delta c), fun e => ?_, fun e => ?_⟩
    · rw [hread (.s1 c) e]
      exact widen_toInt _
    · rw [hread (.s2 c) e]
      exact widen_toInt _

theorem readReg_writeReg_same {r : Reg} {v x : Word} (h : readBack v r = some x) (s : State) :
    readReg (writeReg r v s) r = x := by
  cases r with
  | fmtTag =>
    obtain rfl := Option.some.inj h
    apply BitVec.eq_of_toNat_eq
    have hand : v.toNat &&& 3 = v.toNat % 4 := Nat.and_two_pow_sub_one_eq_mod v.toNat 2
    simp only [readReg, writeReg, BitVec.toNat_setWidth, BitVec.toNat_and, BitVec.toNat_ofNat, Nat.reducePow,
      Nat.reduceMod, hand]
    omega
  | delta c => obtain rfl := Option.some.inj h; simp only [readReg, writeReg, State.ch_setCh_same]
  | s1 c => obtain rfl := Option.some.inj h; simp only [readReg, writeReg, State.ch_setCh_same, widen]
  | s2 c => obtain rfl := Option.some.inj h; simp only [readReg, writeReg, State.ch_setCh_same, widen]
  | _ => cases h <;> rfl

/-- Any field of a channel's set is as before when the set put in agrees with the old one in it. -/
theorem field_ch_setCh {α : Type} (field : Predictor → α) {s : State} {c d : Chan} {p : Predictor}
    (h : d = c → field p = field (s.ch c)) : field ((s.setCh c p).ch d) = field (s.ch d) := by
  rw [State.ch_setCh]
  split
  · next e => rw [h e, e]
  · rfl

/-- Replacing a channel's set changes the registers of the fields in which it differs, and no other. -/
theorem readReg_setCh {s : State} {c : Chan} {p : Predictor} {r : Reg}
    (hcoeff1 : r = .coeff1 c → p.coeff1 = (s.ch c).coeff1) (hcoeff2 : r = .coeff2 c → p.coeff2 = (s.ch c).coeff2)
    (hdelta : r = .delta c → p.delta = (s.ch c).delta) (hs1 : r = .s1 c → p.sample1 = (s.ch c).sample1)
    (hs2 : r = .s2 c → p.sample2 = (s.ch c).sample2) : readReg (s.setCh c p) r = readReg s r := by
  cases r with
  | coeff1 d => exact field_ch_setCh Predictor.coeff1 fun e => hcoeff1 (e ▸ rfl)
  | coeff2 d => exact field_ch_setCh Predictor.coeff2 fun e => hcoeff2 (e ▸ rfl)
  | delta d => exact field_ch_setCh Predictor.delta fun e => hdelta (e ▸ rfl)
  | s1 d => exact congrArg widen (field_ch_setCh Predictor.sample1 fun e => hs1 (e ▸ rfl))
  | s2 d => exact congrArg widen (field_ch_setCh Predictor.sample2 fun e => hs2 (e ▸ rfl))
  | _ => cases c <;> rfl

/-- A write of a plainly written register changes no other register (R22). -/
theorem readReg_writeReg_other {r r' : Reg} {v x : Word} (h : readBack v r = some x) (hne : r' ≠ r) (s : State) :
    readReg (writeReg r v s) r' = readReg s r' := by
  cases r with
  | fmtTag => (cases r' with | fmtTag => exact absurd rfl hne | _ => rfl)
  | channels => (cases r' with | channels => exact absurd rfl hne | _ => rfl)
  | blockAlign => (cases r' with | blockAlign => exact absurd rfl hne | _ => rfl)
  | len => (cases r' with | len => exact absurd rfl hne | _ => rfl)
  | inOff => (cases r' with | inOff => exact absurd rfl hne | _ => rfl)
  | blkSize => (cases r' with | blkSize => exact absurd rfl hne | _ => rfl)
  | outOff => (cases r' with | outOff => exact absurd rfl hne | _ => rfl)
  | delta c => exact readReg_setCh (fun _ => rfl) (fun _ => rfl) (fun e => absurd e hne) (fun _ => rfl) (fun _ => rfl)
  | s1 c => exact readReg_setCh (fun _ => rfl) (fun _ => rfl) (fun _ => rfl) (fun e => absurd e hne) (fun _ => rfl)
  | s2 c => exact readReg_setCh (fun _ => rfl) (fun _ => rfl) (fun _ => rfl) (fun _ => rfl) (fun e => absurd e hne)
  | _ => cases h

/-- Settles O40, by what a register write does to its own register and leaves of the others. -/
theorem registerWriteReadsBack : Obligations.RegisterWriteReadsBack := by
  intro s r v x rest hh hx
  have hcmd : r ≠ .cmd := by rintro rfl; cases hx
  obtain ⟨hparams, hin, hout, hepoch, hhost, hdata⟩ := writeReg_frame r v { s with host := rest }
  exact ⟨_, step_regWrite hh hcmd, readReg_writeReg_same hx _, fun r' hne => readReg_writeReg_other hx hne _,
    hin, hout, hparams, hepoch, hhost, hdata⟩

/-- The coefficient tables as the rule lists them (R110). -/
theorem adaptCoeff_toInt : ∀ k : Fin 7,
    (toReg adaptCoeff1[k]).toInt = [256, 512, 0, 192, 240, 460, 392].getD k 0 ∧
    (toReg adaptCoeff2[k]).toInt = [0, -256, 0, 64, 0, -208, -232].getD k 0 := by decide

/-- Settles O44, by what SelectCoeff does (R112). -/
theorem predWriteSelectsCoefficients : Obligations.PredWriteSelectsCoefficients := by
  intro s c v rest hh
  have hoff : (if c = .ch0 then 0x40 else 0x60) = regOffset (.pred c) := by cases c <;> rfl
  rw [hoff] at hh
  obtain ⟨h1, h2⟩ := adaptCoeff_toInt (predIndex v.toNat)
  refine ⟨_, step_regWrite hh nofun, ?_⟩
  rw [writeReg, selectCoeff_eq, State.ch_setCh_same]
  refine ⟨h1, h2, ?_⟩
  by_cases hv : 6 < v.toNat
  · simp only [regNat, hv, if_true]
    rfl
  · simp only [regNat, hv, if_false]
    rfl

end Sys2Proof.Machine
end

section
/-! PROOF. The bytes that the access primitives and the host move, as numbers, and the obligations about IN and OUT. -/

namespace Sys2Proof.Machine

-- The two bytes of a 16-bit quantity (R53).

theorem lowByte_toNat (v : Half) : (lowByte v).toNat = v.toNat % 256 := by
  rw [lowByte, BitVec.extractLsb'_toNat, Nat.shiftRight_zero]

theorem highByte_toNat (v : Half) : (highByte v).toNat = v.toNat / 256 := by
  have := v.isLt
  rw [highByte, BitVec.extractLsb'_toNat, Nat.shiftRight_eq_div_pow]
  omega

theorem halfOfBytes_toNat (lo hi : Byte) : (halfOfBytes lo hi).toNat = lo.toNat + 256 * hi.toNat := by
  rw [halfOfBytes, BitVec.toNat_append, ← Nat.shiftLeft_add_eq_or_of_lt lo.isLt, Nat.shiftLeft_eq]
  omega

theorem sext16_toNat (v : Int) : (sext16 v).toNat = (v % 65536).toNat := BitVec.toNat_ofInt v

-- The access primitives where the bound check fails, and the one-byte write where it holds.

theorem memRead1_outside {off : Nat} {s : State} (h : s.inCap < off + 1) :
    memRead1 off s = .refuse .memReadOutsideIn := if_neg (not_le_of_gt h)

theorem memRead2_outside {off : Nat} {s : State} (h : s.inCap < off + 2) :
    memRead2 off s = .refuse .memReadOutsideIn := if_neg (not_le_of_gt h)

theorem memWrite1_fits {off : Nat} {s : State} (b : Byte) (h : off + 1 ≤ s.outCap) :
    memWrite1 off b s = .ok () (s.putOut off b) := if_neg (not_lt_of_ge h)

theorem memWrite1_overflow {off : Nat} {s : State} (b : Byte) (h : s.outCap < off + 1) :
    memWrite1 off b s = .raise (.outputOverflow off) s := if_pos h

-- The bytes of a space after a write to it.

theorem State.inByte_putIn (s : State) (off : Nat) (b : Byte) (a : Nat) :
    (s.putIn off b).inByte a = if a = off then b else s.inByte a := by
  split
  · next h => rw [h, State.inByte_putIn_same]
  · next h => exact State.inByte_putIn_other s h b

theorem State.outByte_putOut (s : State) (off : Nat) (b : Byte) (a : Nat) :
    (s.putOut off b).outByte a = if a = off then b else s.outByte a := by
  split
  · next h => rw [h, State.outByte_putOut_same]
  · next h => exact State.outByte_putOut_other s h b

theorem State.outByte_putHalf_low (s : State) (off : Nat) (v : Half) : (s.putHalf off v).outByte off = lowByte v := by
  rw [State.putHalf, State.outByte_putOut_other _ (by omega), State.outByte_putOut_same]

theorem State.outByte_putHalf_high (s : State) (off : Nat) (v : Half) :
    (s.putHalf off v).outByte (off + 1) = highByte v := State.outByte_putOut_same _ _ _

/-- What a host read returns is the byte, zero-extended (log entry 6). -/
theorem zeroExtended_toNat (b : Byte) : (b.setWidth 32).toNat = b.toNat := BitVec.toNat_setWidth_of_le (by decide)

-- The obligations about IN and OUT.

/-- Settles O6: each command's outcome is the state its effect leaves. -/
theorem everyCommandAnswersANextState : Obligations.EveryCommandAnswersANextState := fun i s => ⟨_, exec_eq i s⟩

/-- Settles O8, width by width: the bound check fails in the unchanged state, or all the bytes are put. -/
theorem memWriteWholeOrNotAtAll : Obligations.MemWriteWholeOrNotAtAll := by
  refine ⟨fun s off v => ⟨memWrite1_overflow _, fun hfit => ⟨_, memWrite1_fits _ hfit, ?_, ?_, rfl⟩⟩,
    fun s off v => ⟨memWrite2_overflow _, fun hfit => ⟨_, memWrite2_fits _ hfit, ?_, ?_, ?_, rfl⟩⟩⟩
  · rw [State.outByte_putOut_same]
    exact BitVec.toNat_ofInt v
  · exact fun a ha => State.outByte_putOut_other s ha _
  · rw [State.outByte_putHalf_low, lowByte_toNat, sext16_toNat]
  · rw [State.outByte_putHalf_high, highByte_toNat, sext16_toNat]
  · exact fun a hlow hhigh => State.outByte_putHalf_other s off _ (by omega)

/-- Settles O45: each access passes its bound check and puts one byte, or reads one. -/
theorem hostBufferAccess : Obligations.HostBufferAccess := by
  intro s off b rest
  refine ⟨fun hin hh => ⟨_, (step_eq_hostAccess hh).trans (if_pos hin), ?_, rfl⟩,
    fun hout hh => ⟨_, (step_eq_hostAccess hh).trans (if_pos hout), ?_, rfl⟩,
    fun hin hh => ⟨_, (step_eq_hostAccess hh).trans (if_pos hin), zeroExtended_toNat _⟩,
    fun hout hh => ⟨_, (step_eq_hostAccess hh).trans (if_pos hout), zeroExtended_toNat _⟩⟩
  · exact State.inByte_putIn { s with host := rest } off b
  · exact State.outByte_putOut { s with host := rest } off b

/-- Settles O9, by the two sides of the bound check. -/
theorem memReadLittleEndian : Obligations.MemReadLittleEndian := fun _ _ =>
  ⟨memRead1_inside, fun h => ⟨_, memRead2_inside h, halfOfBytes_toNat _ _⟩, memRead1_outside, memRead2_outside⟩

end Sys2Proof.Machine
end

section
/-! PROOF. The fields of a command word as numbers, the decoder and the encoder said once, and the obligations about
encoding (spec/30_encoding.md R70 to R74). -/

namespace Sys2Proof.Machine

-- The fields of a word (R70).

theorem fieldOp_toNat (w : Word) : (fieldOp w).toNat = w.toNat % 16 := by
  rw [fieldOp, BitVec.extractLsb'_toNat, Nat.shiftRight_zero]

theorem fieldNib_toNat (w : Word) : (fieldNib w).toNat = w.toNat / 16 % 16 := by
  rw [fieldNib, BitVec.extractLsb'_toNat, Nat.shiftRight_eq_div_pow]

theorem fieldOperand_toNat (w : Word) : (fieldOperand w).toNat = w.toNat / 16 % 32 := by
  rw [fieldOperand, BitVec.extractLsb'_toNat, Nat.shiftRight_eq_div_pow]

theorem fieldZero_toNat (w : Word) : (fieldZero w).toNat = w.toNat / 512 := by
  have := w.isLt
  rw [fieldZero, BitVec.extractLsb'_toNat, Nat.shiftRight_eq_div_pow]
  omega

theorem chanBit_fieldCh_toNat (w : Word) : (chanBit (fieldCh w)).toNat = w.toNat / 256 % 2 := by
  have hbit : w.getLsbD 8 = decide (w.toNat / 256 % 2 = 1) := Nat.testBit_eq_decide_div_mod_eq
  rw [fieldCh, hbit]
  split
  · next h => exact (of_decide_eq_true h).symm
  · next h => exact (Nat.mod_two_ne_one.mp (mt decide_eq_true h)).symm

theorem fieldZero_eq_zero_iff (w : Word) : fieldZero w = 0#23 ↔ w.toNat / 512 = 0 := by
  rw [← BitVec.toNat_inj, fieldZero_toNat]
  rfl

theorem fieldOperand_eq_zero_iff (w : Word) : fieldOperand w = 0#5 ↔ w.toNat / 16 % 32 = 0 := by
  rw [← BitVec.toNat_inj, fieldOperand_toNat]
  rfl

theorem commandWord_toNat (op : BitVec 4) (nib : Nibble) (ch : BitVec 1) :
    (commandWord op nib ch).toNat = op.toNat + 16 * nib.toNat + 256 * ch.toNat := by
  rw [commandWord, BitVec.toNat_append, BitVec.toNat_append, BitVec.toNat_append,
    ← Nat.shiftLeft_add_eq_or_of_lt op.isLt, ← Nat.shiftLeft_add_eq_or_of_lt nib.isLt, BitVec.toNat_zero,
    Nat.zero_shiftLeft, Nat.zero_or]
  omega

/-- A word whose ZERO field is 0 is put together again from its other fields. -/
theorem commandWord_fields {w : Word} (hzero : fieldZero w = 0#23) :
    commandWord (fieldOp w) (fieldNib w) (chanBit (fieldCh w)) = w := by
  apply BitVec.eq_of_toNat_eq
  have := (fieldZero_eq_zero_iff w).mp hzero
  rw [commandWord_toNat, fieldOp_toNat, fieldNib_toNat, chanBit_fieldCh_toNat]
  omega

/-- A word whose ZERO field and operand bits are 0 is its OP alone. -/
theorem commandWord_fieldOp {w : Word} (hzero : fieldZero w = 0#23) (hoperand : fieldOperand w = 0#5) :
    commandWord (fieldOp w) 0#4 0#1 = w := by
  apply BitVec.eq_of_toNat_eq
  have hz := (fieldZero_eq_zero_iff w).mp hzero
  have ho := (fieldOperand_eq_zero_iff w).mp hoperand
  rw [commandWord_toNat, fieldOp_toNat, BitVec.toNat_zero, BitVec.toNat_zero]
  omega

-- The decoder and the encoder (R71).

/-- The commands without operands, each under its OP (R71). -/
def bareCommands : List (BitVec 4 × Instr) :=
  [(1#4, .alawDec), (2#4, .adpcmDec), (3#4, .adpcmBlk), (5#4, .pass), (6#4, .dec)]

theorem encode_bareCommand : ∀ p ∈ bareCommands, encode p.2 = commandWord p.1 0#4 0#1 := by decide

/-- The values of OP that select a command without operands (R73). -/
theorem mem_bareCommands_map_fst_iff (op : BitVec 4) :
    op ∈ bareCommands.map Prod.fst ↔ op.toNat ≠ 0 ∧ op.toNat < 7 ∧ op.toNat ≠ 4 := by
  revert op
  decide

theorem bareCommand_eq_ok_iff (w : Word) (i j : Instr) : bareCommand w i = .ok j ↔ fieldOperand w = 0#5 ∧ j = i := by
  rw [bareCommand]
  split
  · next h => simp [h, eq_comm]
  · next h => simp [h]

/-- What the decoder accepts, and as what: ADPCM.NIB with its operands, or a command without (R71, R73). -/
theorem decode_eq_ok_iff (w : Word) (i : Instr) :
    decode w = .ok i ↔ fieldZero w = 0#23 ∧
      ((fieldOp w = 4#4 ∧ .adpcmNib (fieldCh w) (fieldNib w) = i) ∨
        (fieldOperand w = 0#5 ∧ (fieldOp w, i) ∈ bareCommands)) := by
  rw [decode, bareCommands]
  by_cases hzero : fieldZero w = 0#23
  · rw [if_neg (not_not_intro hzero)]
    by_cases hnib : fieldOp w = 4#4
    · simp [hzero, hnib]
    · split_ifs <;> simp [bareCommand_eq_ok_iff, *]
  · simp [hzero]

/-- By the two kinds of command: an accepted word is put together again from its fields. -/
theorem encode_of_decode {w : Word} {i : Instr} (h : decode w = .ok i) : encode i = w := by
  obtain ⟨hzero, ⟨hop, rfl⟩ | ⟨hoperand, hbare⟩⟩ := (decode_eq_ok_iff w i).mp h
  · exact (congrArg (commandWord · _ _) hop.symm).trans (commandWord_fields hzero)
  · exact (encode_bareCommand _ hbare).trans (commandWord_fieldOp hzero hoperand)

theorem decode_encode_adpcmNib (c : Chan) (n : Nibble) : decode (encode (.adpcmNib c n)) = .ok (.adpcmNib c n) := by
  cases c <;> revert n <;> decide

theorem decode_encode : ∀ i : Instr, decode (encode i) = .ok i
  | .alawDec => decode_alawDec
  | .adpcmDec => decode_adpcmDec
  | .adpcmBlk => decode_adpcmBlk
  | .adpcmNib c n => decode_encode_adpcmNib c n
  | .pass => decode_pass
  | .dec => decode_dec

/-- A command has one word (R71). -/
theorem decode_eq_ok_iff_eq_encode (w : Word) (i : Instr) : decode w = .ok i ↔ w = encode i :=
  ⟨fun h => (encode_of_decode h).symm, fun h => h ▸ decode_encode i⟩

theorem encode_injective : Function.Injective encode := fun i j h =>
  Except.ok.inj ((decode_encode i).symm.trans ((congrArg decode h).trans (decode_encode j)))

/-- The word of ADPCM.NIB as a number (R71). -/
theorem encode_adpcmNib (c : Chan) (n : Nibble) :
    encode (.adpcmNib c n) = BitVec.ofNat 32 (0x00000004 + 16 * n.toNat + 256 * (if c = .ch1 then 1 else 0)) := by
  apply BitVec.eq_of_toNat_eq
  have := n.isLt
  cases c <;> simp [encode, commandWord_toNat, chanBit] <;> omega

/-- Every command, ADPCM.NIB at each channel and nibble. -/
def allCommands : List Instr :=
  bareCommands.map Prod.snd ++
    [Chan.ch0, .ch1].flatMap fun c => (List.finRange 16).map fun n => .adpcmNib c (BitVec.ofFin n)

theorem mem_allCommands (i : Instr) : i ∈ allCommands := by
  cases i with
  | adpcmNib c n =>
    refine List.mem_append_right _ (List.mem_flatMap.mpr ⟨c, by cases c <;> decide, ?_⟩)
    exact List.mem_map.mpr ⟨n.toFin, List.mem_finRange _, rfl⟩
  | _ => decide

theorem allCommands_nodup : allCommands.Nodup := by decide

-- The illegal words (R73).

/-- The legal words by their fields. -/
theorem exists_decode_eq_ok_iff (w : Word) :
    (∃ i, decode w = .ok i) ↔ fieldZero w = 0#23 ∧
      (fieldOp w = 4#4 ∨ (fieldOperand w = 0#5 ∧ fieldOp w ∈ bareCommands.map Prod.fst)) := by
  simp [decode_eq_ok_iff, exists_or]

theorem exists_decode_eq_error {w : Word} (h : ∀ i, decode w ≠ .ok i) : ∃ e, decode w = .error e := by
  cases hd : decode w with
  | ok i => exact absurd hd (h i)
  | error e => exact ⟨e, rfl⟩

-- The obligations about encoding.

/-- Settles O1: decoder and encoder undo each other. -/
theorem decodeEncodeAgree : Obligations.DecodeEncodeAgree := ⟨decode_encode, fun _ _ => encode_of_decode⟩

/-- Settles O2: a command has the one word the encoder gives it, and the 37 commands have 37 words. -/
theorem opcodeMapIsExact : Obligations.OpcodeMapIsExact := by
  refine ⟨fun w => decode_eq_ok_iff_eq_encode w _, fun w => decode_eq_ok_iff_eq_encode w _,
    fun w => decode_eq_ok_iff_eq_encode w _, fun w c n => ?_, fun w => decode_eq_ok_iff_eq_encode w _,
    fun w => decode_eq_ok_iff_eq_encode w _, allCommands.map encode, allCommands_nodup.map encode_injective, rfl, ?_⟩
  · rw [decode_eq_ok_iff_eq_encode, encode_adpcmNib]
  · exact fun w => List.mem_map.trans (exists_congr fun i =>
      (and_iff_right (mem_allCommands i)).trans (eq_comm.trans (decode_eq_ok_iff_eq_encode w i).symm))

/-- Settles O3, on the words R71 writes out. -/
theorem sampleWordsDecode : Obligations.SampleWordsDecode :=
  ⟨decode_alawDec, decode_adpcmBlk, decode_adpcmNib_last, decode_dec⟩

/-- Settles O4: the legal words by their fields read as numbers; an illegal word sets ILLCMD (R171). -/
theorem illegalWordRaisesIllegalCommand : Obligations.IllegalWordRaisesIllegalCommand := by
  refine ⟨fun w => ?_, fun s w rest hh hbad => ?_, fun i h => ?_, fun i h => ?_⟩
  · rw [exists_decode_eq_ok_iff, mem_bareCommands_map_fst_iff, fieldZero_eq_zero_iff, fieldOperand_eq_zero_iff,
      ← BitVec.toNat_inj, fieldOp_toNat, BitVec.toNat_ofNat]
    omega
  · obtain ⟨e, he⟩ := exists_decode_eq_error hbad
    rw [step_eq_hostAccess hh]
    exact runCommand_illegal he _
  · exact absurd ((exists_decode_eq_ok_iff _).mp ⟨i, h⟩) (by decide)
  · exact absurd ((exists_decode_eq_ok_iff _).mp ⟨i, h⟩) (by decide)

end Sys2Proof.Machine
end

section
/-! PROOF. The A-law expander as arithmetic (spec/40_alaw.md R100, R101): the magnitude of a code is a strictly growing
function of its low seven bits, and bit 7 is the sign. -/

namespace Sys2Proof.Machine

-- The fields of a code as numbers (R77).

theorem alawExponent_eq (y : Byte) : alawExponent y = y.toNat / 16 % 8 := by
  rw [alawExponent, BitVec.extractLsb'_toNat, Nat.shiftRight_eq_div_pow]

theorem alawMantissa_eq (y : Byte) : alawMantissa y = y.toNat % 16 := by
  rw [alawMantissa, BitVec.extractLsb'_toNat, Nat.shiftRight_zero]

theorem byte_bit7 (y : Byte) : y.getLsbD 7 = decide (128 ≤ y.toNat) := BitVec.msb_eq_decide y

-- The magnitude.

/-- The magnitude of R101 (d), of a code's low seven bits as one number: the exponent above, the mantissa below. -/
def alawCurve (n : Nat) : Nat :=
  if n / 16 = 0 then 16 * (n % 16) + 8 else (16 * (n % 16) + 264) * 2 ^ (n / 16 - 1)

theorem alawCurve_low7 (y : Nat) : alawCurve (y % 128) =
    if y / 16 % 8 = 0 then 16 * (y % 16) + 8 else (16 * (y % 16) + 264) * 2 ^ (y / 16 % 8 - 1) := by
  have hexp : y % 128 / 16 = y / 16 % 8 := by omega
  have hman : y % 128 % 16 = y % 16 := by omega
  rw [alawCurve, hexp, hman]

/-- R100's steps 4 to 6 give that magnitude: for exponents 0 and 1 there is no shift, above 1 the shift is the power of 2. -/
theorem alawMagnitude_eq_alawCurve (y : Byte) : alawMagnitude y = alawCurve (y.toNat % 128) := by
  simp only [alawMagnitude, alawExponent_eq, alawMantissa_eq, alawCurve_low7, Nat.shiftLeft_eq]
  rcases y.toNat / 16 % 8 with _ | _ | e <;> simp [Nat.mul_comm]

/-- The magnitude grows strictly with the low seven bits (R101 (f)): from one mantissa to the next, and from the last
mantissa of an exponent to the first of the next. -/
theorem alawCurve_strictMono : StrictMono alawCurve := by
  refine strictMono_nat_of_lt_succ fun n => ?_
  by_cases hlast : n % 16 = 15
  · have hexp : (n + 1) / 16 = n / 16 + 1 := by omega
    have hman : (n + 1) % 16 = 0 := by omega
    rw [alawCurve, alawCurve, hexp, hman, hlast]
    rcases n / 16 with _ | e
    · decide
    · simp only [Nat.succ_ne_zero, if_false, Nat.add_sub_cancel, pow_succ]
      have := Nat.two_pow_pos e
      omega
  · have hexp : (n + 1) / 16 = n / 16 := by omega
    have hman : (n + 1) % 16 = n % 16 + 1 := by omega
    rw [alawCurve, alawCurve, hexp, hman]
    split
    · omega
    · exact Nat.mul_lt_mul_of_pos_right (by omega) (Nat.two_pow_pos _)

theorem alawCurve_pos (n : Nat) : 0 < alawCurve n :=
  lt_of_lt_of_le (by decide : 0 < alawCurve 0) (alawCurve_strictMono.monotone (Nat.zero_le n))

theorem alawCurve_le {n : Nat} (h : n < 128) : alawCurve n ≤ 32256 :=
  alawCurve_strictMono.monotone (Nat.le_of_lt_succ h : n ≤ 127)

-- The signed value.

theorem alawValue_eq (b : Byte) : alawValue b =
    if 128 ≤ (alawCode b).toNat then - (alawCurve ((alawCode b).toNat % 128) : Int)
    else alawCurve ((alawCode b).toNat % 128) := by
  simp only [alawValue, byte_bit7, alawMagnitude_eq_alawCurve, decide_eq_true_eq]
  split
  · exact Int.neg_one_mul _
  · exact Int.one_mul _

theorem sext16_toInt {v : Int} (hlo : -32768 ≤ v) (hhi : v < 32768) : (sext16 v).toInt = v := by
  rw [sext16, BitVec.toInt_ofInt]
  exact Int.bmod_eq_of_le (by omega) (by omega)

/-- Step 7's truncation changes nothing (R101 (a)). -/
theorem alawExpand_toInt (b : Byte) : (alawExpand b).toInt = alawValue b := by
  have := alawCurve_le (Nat.mod_lt (alawCode b).toNat (by decide : 128 > 0))
  refine sext16_toInt ?_ ?_ <;> rw [alawValue_eq] <;> split <;> omega

theorem alawValue_ne_zero (b : Byte) : alawValue b ≠ 0 := by
  have := alawCurve_pos ((alawCode b).toNat % 128)
  rw [alawValue_eq]
  split <;> omega

theorem alawCode_flip (b : Byte) : alawCode (b ^^^ 0x80#8) = alawCode b ^^^ 0x80#8 := by
  rw [alawCode, alawCode, BitVec.xor_assoc, BitVec.xor_assoc, BitVec.xor_comm 0x80#8]

theorem byte_flip_toNat (y : Byte) :
    (y ^^^ 0x80#8).toNat = if 128 ≤ y.toNat then y.toNat - 128 else y.toNat + 128 := by
  revert y
  decide

theorem alawValue_flip (b : Byte) : alawValue (b ^^^ 0x80#8) = - alawValue b := by
  have hlt := (alawCode b).isLt
  rw [alawValue_eq, alawValue_eq, alawCode_flip, byte_flip_toNat]
  by_cases h : 128 ≤ (alawCode b).toNat
  · rw [if_pos h, if_pos h, if_neg (by omega), Int.neg_neg, ← Nat.mod_eq_sub_mod h]
  · rw [if_neg h, if_neg h, if_pos (by omega), Nat.add_mod_right]

theorem alawValue_injective : Function.Injective alawValue := by
  intro b c h
  have hb := alawCurve_pos ((alawCode b).toNat % 128)
  have hc := alawCurve_pos ((alawCode c).toNat % 128)
  have hbLt := (alawCode b).isLt
  have hcLt := (alawCode c).isLt
  obtain ⟨hmag, hsign⟩ : alawCurve ((alawCode b).toNat % 128) = alawCurve ((alawCode c).toNat % 128) ∧
      (128 ≤ (alawCode b).toNat ↔ 128 ≤ (alawCode c).toNat) := by
    rw [alawValue_eq, alawValue_eq] at h
    split at h <;> split at h <;> omega
  have hlow := alawCurve_strictMono.injective hmag
  have hcode : alawCode b = alawCode c := BitVec.eq_of_toNat_eq (by omega)
  exact (BitVec.xor_left_inj 0xD5#8).mp hcode

-- The obligation about the expander.

/-- Settles O10: the closed form is the strictly growing `alawCurve` under the sign of bit 7. -/
theorem alawExpandClosedForm : Obligations.AlawExpandClosedForm := by
  refine ⟨fun b => ?_, fun b => ⟨?_, ?_⟩, fun b c h => ?_⟩
  · rw [alawExpand_toInt, alawValue_eq, alawCurve_low7]
    push_cast
    rfl
  · rw [alawExpand_toInt, alawExpand_toInt, alawValue_flip]
  · rw [alawExpand_toInt]
    exact alawValue_ne_zero b
  · apply alawValue_injective
    rw [← alawExpand_toInt, ← alawExpand_toInt, h]

end Sys2Proof.Machine
end

section
/-! PROOF. What ALAW.DEC leaves in OUT, and that neither the fault bits nor the cursor of any command's effect are read off
the bytes of IN (spec/40_alaw.md R102 to R105; spec/41_adpcm.md R125). -/

namespace Sys2Proof.Machine

-- ALAW.DEC.

theorem Effect.outHolds_apply_writing (flags : Word) (start : Nat) (vs : List Half) (s : State) :
    OutHolds ((Effect.writing flags start (sampleBytes vs)).apply s) start vs := by
  have h := s.outHolds_putHalves start vs
  rw [State.putHalves_eq] at h
  exact h

theorem Effect.outSameOutside_apply_writing (flags : Word) (start : Nat) (bs : List Byte) (s : State) :
    OutSameOutside s ((Effect.writing flags start bs).apply s) start (start + bs.length) := by
  intro a ha
  rw [Effect.outByte_apply]
  exact State.outByte_putBytes_other s start bs ha

/-- Settles O11: every sample fits, so the effect writes them all and adds no flag. -/
theorem alawDecCompletes : Obligations.AlawDecCompletes := by
  intro s hfit
  have heff : alawEffect s = .writing 0#32 0 (sampleBytes (alawSamples s)) := if_pos hfit
  have hlen : (sampleBytes (alawSamples s)).length = 2 * alawCount s := by rw [sampleBytes_length, alawSamples_length]
  refine ⟨_, execAlawDec_eq s, ?_⟩
  rw [heff, AlawDone, ← hlen]
  refine ⟨Effect.outHolds_apply_writing _ _ _ _, ?_, ?_⟩
  · simpa using Effect.outSameOutside_apply_writing 0#32 0 (sampleBytes (alawSamples s)) s
  · simp [Effect.apply_writing]

/-- Settles O12: the effect writes the first OUT_CAP / 2 samples and adds OUTOVF. -/
theorem alawDecOverflows : Obligations.AlawDecOverflows := by
  intro s hover
  have heff : alawEffect s = .writing Flag.outovf.mask 0 (sampleBytes ((alawSamples s).take (s.outCap / 2))) :=
    if_neg (not_le_of_gt hover)
  have hlen : (sampleBytes ((alawSamples s).take (s.outCap / 2))).length = 2 * (s.outCap / 2) := by
    rw [sampleBytes_length, List.length_take_of_le (by rw [alawSamples_length]; omega)]
  refine ⟨_, execAlawDec_eq s, ?_⟩
  rw [heff, ← hlen]
  refine ⟨Effect.outHolds_apply_writing _ _ _ _, ?_, ?_⟩
  · simpa using Effect.outSameOutside_apply_writing Flag.outovf.mask 0 (sampleBytes ((alawSamples s).take (s.outCap / 2))) s
  · rw [Effect.apply_writing, Nat.zero_add]
    rfl

-- The ends of two effects: their fault bits and the cursor they leave.

theorem length_take_congr {vs vs' : List Half} (k : Nat) (h : vs'.length = vs.length) :
    (vs'.take k).length = (vs.take k).length := by
  rw [List.length_take, List.length_take, h]

theorem sampleBytes_length_congr {vs vs' : List Half} (h : vs'.length = vs.length) :
    (sampleBytes vs').length = (sampleBytes vs).length := by
  rw [sampleBytes_length, sampleBytes_length, h]

/-- Two effects end alike when they add the same of the four fault bits and leave the same cursor. -/
structure Effect.EndsAlike (e e' : Effect) : Prop where
  faults : e'.flags &&& 0x0000000F#32 = e.flags &&& 0x0000000F#32
  outOff : e'.outOff = e.outOff

theorem Effect.EndsAlike.refl (e : Effect) : e.EndsAlike e := ⟨rfl, rfl⟩

theorem Effect.EndsAlike.ite {p : Prop} [Decidable p] {a a' b b' : Effect} (ha : p → a.EndsAlike a')
    (hb : ¬ p → b.EndsAlike b') : (if p then a else b).EndsAlike (if p then a' else b') := by
  by_cases h : p
  · rw [if_pos h, if_pos h]; exact ha h
  · rw [if_neg h, if_neg h]; exact hb h

theorem Effect.EndsAlike.writing {flags flags' : Word} {bs bs' : List Byte} (start : Nat)
    (hflags : flags' &&& 0x0000000F#32 = flags &&& 0x0000000F#32) (hlen : bs'.length = bs.length) :
    (Effect.writing flags start bs).EndsAlike (.writing flags' start bs') where
  faults := hflags
  outOff := by rw [Effect.writing, Effect.writing, hlen]

theorem Effect.EndsAlike.decoding {flags flags' : Word} {vs vs' : List Half} {sets sets' : Predictor × Predictor}
    (stereo : Bool) (start : Nat) (hflags : flags' &&& 0x0000000F#32 = flags &&& 0x0000000F#32)
    (hlen : vs'.length = vs.length) :
    (Effect.decoding stereo flags start vs sets).EndsAlike (.decoding stereo flags' start vs' sets') where
  faults := hflags
  outOff := (Effect.EndsAlike.writing start hflags (sampleBytes_length_congr hlen)).outOff

/-- PREDCLAMP, the one flag read off IN, is no fault (R175). -/
theorem faultBits_predclamp (b : Bool) : flagIf b .predclamp &&& 0x0000000F#32 = 0#32 := by cases b <;> decide

-- No command's end is read off IN.

theorem alawEffect_endsAlike (s : State) (m : Memory) : (alawEffect s).EndsAlike (alawEffect { s with inMem := m }) := by
  have hlen : (alawSamples { s with inMem := m }).length = (alawSamples s).length := by
    rw [alawSamples_length, alawSamples_length]; rfl
  exact .ite (fun _ => .writing _ rfl (sampleBytes_length_congr hlen)) fun _ =>
    .writing _ rfl (sampleBytes_length_congr (length_take_congr _ hlen))

theorem passEffect_endsAlike (s : State) (m : Memory) : (passEffect s).EndsAlike (passEffect { s with inMem := m }) := by
  have hlen : ∀ n, ((List.range' 0 n).map (State.inByte { s with inMem := m })).length =
      ((List.range' 0 n).map s.inByte).length := fun n => by rw [List.length_map, List.length_map]
  exact .ite (fun _ => .refl _) fun _ => .ite (fun _ => .writing _ rfl (hlen _)) fun _ => .writing _ rfl (hlen _)

/-- How many samples a block has is read off its size alone (R119). -/
theorem blockSamples_length_congr (rd rd' : Nat → Byte) (stereo : Bool) (bs : Nat) :
    (blockSamples rd' stereo bs).length = (blockSamples rd stereo bs).length := by
  simp only [blockSamples, blockCodes, List.length_append, playSamples_length, dataCodes_length, seedSamples_length]

theorem blkEffect_endsAlike (s : State) (m : Memory) : (blkEffect s).EndsAlike (blkEffect { s with inMem := m }) := by
  have hlen := blockSamples_length_congr (s.blockAt (regNat s.inOff))
    (State.blockAt { s with inMem := m } (regNat s.inOff)) (isStereo s) s.blkBytes
  refine .ite (fun _ => .refl _) fun _ => .ite (fun _ => .refl _) fun _ => .ite (fun _ => .refl _) fun _ =>
    .ite (fun _ => .decoding _ _ ?_ hlen) fun _ =>
    .decoding _ _ ?_ (length_take_congr _ hlen)
  · rw [faultBits_predclamp, faultBits_predclamp]
  · rw [BitVec.and_or_distrib_right, BitVec.and_or_distrib_right, faultBits_predclamp, faultBits_predclamp]

theorem State.samplesFrom_length_inMem (s : State) (m : Memory) (B n k : Nat) :
    (State.samplesFrom { s with inMem := m } B n k).length = (s.samplesFrom B n k).length := by
  simp only [State.samplesFrom, List.length_flatMap]
  exact congrArg (fun f => ((List.range' k n).map f).sum) (funext fun i => blockSamples_length_congr _ _ _ _)

theorem blocksEffect_endsAlike (s : State) (m : Memory) :
    (blocksEffect s).EndsAlike (blocksEffect { s with inMem := m }) := by
  have hlen := s.samplesFrom_length_inMem m (regNat s.blockAlign) s.blockCount 0
  refine .ite (fun _ => .writing _ rfl rfl) fun _ => .ite (fun _ => .decoding _ _ ?_ hlen) fun _ =>
    .decoding _ _ ?_ (length_take_congr _ hlen)
  · rw [BitVec.and_or_distrib_right, BitVec.and_or_distrib_right, faultBits_predclamp, faultBits_predclamp]
  · simp only [BitVec.and_or_distrib_right, faultBits_predclamp]

theorem decEffect_endsAlike (s : State) (m : Memory) : (decEffect s).EndsAlike (decEffect { s with inMem := m }) :=
  .ite (fun _ => .refl _) fun _ => .ite (fun _ => .refl _) fun _ => blocksEffect_endsAlike s m

theorem effect_endsAlike (i : Instr) (s : State) (m : Memory) :
    (effect i s).EndsAlike (effect i { s with inMem := m }) := by
  cases i with
  | alawDec => exact alawEffect_endsAlike s m
  | adpcmDec => exact decEffect_endsAlike s m
  | adpcmBlk => exact blkEffect_endsAlike s m
  | adpcmNib c n => exact .refl _
  | pass => exact passEffect_endsAlike s m
  | dec =>
    simp only [effect]
    cases formatTagOf s.fmtTag with
    | aLaw => exact alawEffect_endsAlike s m
    | adpcmMS => exact decEffect_endsAlike s m
    | linearPCM => exact passEffect_endsAlike s m
    | other => exact passEffect_endsAlike s m

theorem Effect.EndsAlike.apply {e e' : Effect} (h : e.EndsAlike e') (s : State) (m : Memory) :
    (e'.apply { s with inMem := m }).status &&& 0x0000000F#32 = (e.apply s).status &&& 0x0000000F#32 ∧
      (e'.apply { s with inMem := m }).outOff = (e.apply s).outOff := by
  constructor
  · show (s.status ||| e'.flags) &&& 0x0000000F#32 = (s.status ||| e.flags) &&& 0x0000000F#32
    rw [BitVec.and_or_distrib_right, h.faults, ← BitVec.and_or_distrib_right]
  · show e'.outOff.getD s.outOff = e.outOff.getD s.outOff
    rw [h.outOff]

/-- Settles O39: the effects on the two states end alike. -/
theorem faultsDependOnNoData : Obligations.FaultsDependOnNoData := fun i s m =>
  ⟨_, _, exec_eq i s, exec_eq i { s with inMem := m }, (effect_endsAlike i s m).apply s m⟩

end Sys2Proof.Machine
end

section
/-! PROOF. The nibble expansion as arithmetic over the integers (spec/41_adpcm.md R111, R114, R115), and the obligations
about it and ADPCM.NIB. -/

namespace Sys2Proof.Machine

-- The primitives of R13 in the integers' own operations.

theorem wrap32_eq_bmod (v : Int) : wrap32 v = Int.bmod v (2 ^ 32) := BitVec.toInt_ofInt v

theorem wrap32_of_fits {v : Int} (h : v.natAbs < 2 ^ 31) : wrap32 v = v := by
  rw [wrap32_eq_bmod]
  exact Int.bmod_eq_of_le (by omega) (by omega)

theorem wrap32_range (v : Int) : -2 ^ 31 ≤ wrap32 v ∧ wrap32 v < 2 ^ 31 :=
  ⟨BitVec.le_toInt _, BitVec.toInt_lt⟩

theorem asr_eight (v : Int) : asr v 8 = v / 256 := Int.fdiv_eq_ediv_of_nonneg v (by decide)

theorem signedNibble_eq (n : Nibble) :
    signedNibble n = if n.toNat < 8 then (n.toNat : Int) else (n.toNat : Int) - 16 := by
  revert n
  decide

theorem signedNibble_natAbs_le (n : Nibble) : (signedNibble n).natAbs ≤ 8 := by
  revert n
  decide

/-- The adaptation table as the rule lists it (R110). -/
theorem adaptationTable_eq_getD (n : Nibble) : adaptationTable[n.toFin] =
    [230, 230, 230, 230, 307, 409, 512, 614, 768, 614, 512, 409, 307, 230, 230, 230].getD n.toNat 0 := by
  revert n
  decide

theorem adaptationTable_range (n : Nibble) : 0 ≤ adaptationTable[n.toFin] ∧ adaptationTable[n.toFin] ≤ 768 := by
  revert n
  decide

-- The expansion of one predictor set.

theorem newDelta_eq (p : Predictor) (n : Nibble) :
    newDelta p n = max (wrap32 (adaptationTable[n.toFin] * p.delta.toInt) / 256) 16 := by
  rw [newDelta, asr_eight]

/-- R115 (c): the floor from below, the width of the wrapped product from above. -/
theorem newDelta_range (p : Predictor) (n : Nibble) : 16 ≤ newDelta p n ∧ newDelta p n ≤ 8388607 := by
  have := wrap32_range (adaptationTable[n.toFin] * p.delta.toInt)
  rw [newDelta_eq]
  omega

theorem expandNibble_delta_toInt (p : Predictor) (n : Nibble) : (expandNibble p n).2.delta.toInt = newDelta p n := by
  obtain ⟨hlo, hhi⟩ := newDelta_range p n
  exact wrap32_of_fits (by omega)

/-- The step size that R115 (c) promises. -/
def Predictor.deltaInRange (p : Predictor) : Prop := 16 ≤ p.delta.toInt ∧ p.delta.toInt ≤ 8388607

theorem expandNibble_deltaInRange (p : Predictor) (n : Nibble) : (expandNibble p n).2.deltaInRange := by
  rw [Predictor.deltaInRange, expandNibble_delta_toInt]
  exact newDelta_range p n

/-- A sample register keeps 16 bits, so it cannot tell integers that agree modulo 2^16 (R13). -/
theorem sext16_eq_iff (a b : Int) : sext16 a = sext16 b ↔ a ≡ b [ZMOD 65536] := by
  rw [← BitVec.toNat_inj, sext16_toNat, sext16_toNat, Int.ModEq]
  omega

theorem wrap32_modEq (v : Int) : wrap32 v ≡ v [ZMOD 65536] := by
  rw [wrap32_eq_bmod]
  exact Int.ModEq.of_dvd (n := ((2 ^ 32 : Nat) : Int)) (by decide) Int.bmod_emod

/-- No wrap to 32 bits shows in the new sample but those of the prediction (R115 (f)). -/
theorem newSample_eq (p : Predictor) (n : Nibble) :
    newSample p n = sext16 (predict p + signedNibble n * p.delta.toInt) :=
  (sext16_eq_iff _ _).mpr ((wrap32_modEq _).trans ((wrap32_modEq _).add_left _))

theorem toInt_modEq_toNat (d : Word) : d.toInt ≡ d.toNat [ZMOD 65536] := by
  rw [BitVec.toInt_eq_toNat_bmod]
  exact Int.ModEq.of_dvd (n := ((2 ^ 32 : Nat) : Int)) (by decide) Int.bmod_emod

-- The domain in which the 32-bit width is invisible.

/-- Every pair of the tables sums to at most 768 in magnitude (R110). -/
theorem adaptCoeff_natAbs_le : ∀ i : Fin 7,
    (toReg adaptCoeff1[i]).toInt.natAbs + (toReg adaptCoeff2[i]).toInt.natAbs ≤ 768 := by decide

theorem half_natAbs_le (h : Half) : h.toInt.natAbs ≤ 32768 := by
  have := h.le_toInt
  have := h.toInt_lt
  omega

/-- R115 (a): neither product, and so not their sum, leaves 25165824 in magnitude. -/
theorem products_natAbs_le {p : Predictor} (h : p.tablePair) :
    (p.sample1.toInt * p.coeff1.toInt).natAbs + (p.sample2.toInt * p.coeff2.toInt).natAbs ≤ 25165824 := by
  obtain ⟨i, h1, h2⟩ := h
  have hcoeff := adaptCoeff_natAbs_le i
  rw [← h1, ← h2] at hcoeff
  have hs1 := Nat.mul_le_mul_right p.coeff1.toInt.natAbs (half_natAbs_le p.sample1)
  have hs2 := Nat.mul_le_mul_right p.coeff2.toInt.natAbs (half_natAbs_le p.sample2)
  rw [Int.natAbs_mul, Int.natAbs_mul]
  omega

theorem predict_of_tablePair {p : Predictor} (h : p.tablePair) :
    predict p = Int.tdiv (p.sample1.toInt * p.coeff1.toInt + p.sample2.toInt * p.coeff2.toInt) 256 := by
  have hbound := products_natAbs_le h
  have h1 := wrap32_of_fits (v := p.sample1.toInt * p.coeff1.toInt) (by omega)
  have h2 := wrap32_of_fits (v := p.sample2.toInt * p.coeff2.toInt) (by omega)
  rw [predict, tdiv, h1, h2, wrap32_of_fits (by omega)]

theorem newDelta_of_domain {p : Predictor} (n : Nibble) (hlo : 0 ≤ p.delta.toInt) (hhi : p.delta.toInt ≤ 2796202) :
    newDelta p n = max 16 (adaptationTable[n.toFin] * p.delta.toInt / 256) := by
  obtain ⟨htlo, hthi⟩ := adaptationTable_range n
  have hprod := mul_le_mul hthi hhi hlo (by decide)
  have hpos := mul_nonneg htlo hlo
  rw [newDelta_eq, wrap32_of_fits (by omega), max_comm]

-- The obligations about the nibble expansion.

/-- Settles O13: the wraps, the division and the table of the model are those the rule names. -/
theorem adpcmNibResult : Obligations.AdpcmNibResult := by
  intro c n s
  dsimp only
  simp only [← wrap32_eq_bmod, ← signedNibble_eq, ← adaptationTable_eq_getD]
  have hmax : ∀ nd : Int, (if nd < 16 then 16 else nd) = max nd 16 := fun nd => by
    split <;> omega
  rw [hmax, ← newDelta_eq]
  cases c <;> rfl

/-- Settles O14: the delta by the range of the adapted step size, the rest by what the expansion replaces. -/
theorem nibbleDeltaStaysInRange : Obligations.NibbleDeltaStaysInRange := by
  refine ⟨fun p n => ?_, fun c n s t h => ?_⟩
  · obtain ⟨hlo, hhi⟩ := expandNibble_deltaInRange p n
    exact ⟨hlo, hhi, rfl, rfl⟩
  · obtain rfl := Outcome_next_inj h
    obtain ⟨hlo, hhi⟩ := expandNibble_deltaInRange (s.ch c) n
    rw [nibbleExpand_eq, State.ch_setResult, State.ch_setCh_same]
    refine ⟨hlo, hhi, rfl, rfl, fun d hd => ?_⟩
    rw [State.ch_setResult, State.ch_setCh_other _ hd]

/-- Settles O15: the prediction and the step size each stay inside 32 bits; the sample sees no wrap anyway. -/
theorem nibbleWidthInvisibleInDomain : Obligations.NibbleWidthInvisibleInDomain := by
  intro p n hpair hlo hhi
  have hbound := products_natAbs_le hpair
  refine ⟨by omega, ?_, ?_⟩
  · rw [← signedNibble_eq]
    exact (newSample_eq p n).trans (congrArg (sext16 <| · + _) (predict_of_tablePair hpair))
  · rw [expandNibble_delta_toInt, newDelta_of_domain n hlo hhi]

/-- Settles O16: the prediction does not read delta, and the nibble's contribution is read modulo 2^16. -/
theorem nibbleSampleSeesDeltaModulo : Obligations.NibbleSampleSeesDeltaModulo := by
  intro p d n h
  have hdelta : d.toInt ≡ p.delta.toInt [ZMOD 65536] :=
    (toInt_modEq_toNat d).trans (((Int.natCast_modEq_iff.mpr h).symm).trans (toInt_modEq_toNat p.delta).symm)
  show newSample { p with delta := d } n = newSample p n
  rw [newSample_eq, newSample_eq, sext16_eq_iff]
  exact (hdelta.mul_left _).add_left _

end Sys2Proof.Machine
end

section
/-! PROOF. What ADPCM.BLK leaves, read off its effect (spec/41_adpcm.md R115 to R121, R126, R174), and the obligations about
it. -/

namespace Sys2Proof.Machine

-- The outcome of a block decode.

/-- What a decoding that reaches the sets of `blockSets` leaves: its samples, every other byte as before, and the fields it
replaces; the sets are written from what `ch[1]` held, as R174 says them. -/
theorem Effect.decoding_leaves {flags status : Word} {start hi : Nat} {vs : List Half} (rd : Nat → Byte) (bs k : Nat)
    (s : State) (hhi : start + 2 * vs.length = hi) (hstatus : s.status ||| flags = status) :
    let t := (Effect.decoding (isStereo s) flags start vs (setsAfter rd (isStereo s) bs k)).apply s
    OutHolds t start vs ∧ OutSameOutside s t start hi ∧
    t = { s with
      outMem := t.outMem
      outOff := BitVec.ofNat 32 hi
      status := status
      ch0 := (blockSets rd (isStereo s) bs k s.ch1).1
      ch1 := (blockSets rd (isStereo s) bs k s.ch1).2 } := by
  subst hhi hstatus
  refine ⟨Effect.outHolds_apply_writing flags start vs s, ?_, ?_⟩
  · rw [← sampleBytes_length]
    exact Effect.outSameOutside_apply_writing flags start (sampleBytes vs) s
  · rw [Effect.apply_decoding, blockSets_eq_setsAfter]

theorem blkEffect_of_skip {s : State} (hch : channelsLegal s = true) (hskip : s.blkBytes < headerSize (isStereo s)) :
    blkEffect s = .flagOnly .blkskip := by
  rw [blkEffect, if_neg (not_not_intro hch), if_pos hskip]

theorem blkEffect_of_fits {s : State} (hready : adpcmBlkReady s)
    (hfit : regNat s.outOff + blockOutput (isStereo s) s.blkBytes ≤ s.outCap) :
    blkEffect s = .decoding (isStereo s) (flagIf (headerClamps (s.blockAt (regNat s.inOff)) (isStereo s)) .predclamp)
      (regNat s.outOff) (blockSamples (s.blockAt (regNat s.inOff)) (isStereo s) s.blkBytes)
      (setsAfter (s.blockAt (regNat s.inOff)) (isStereo s) s.blkBytes (2 * s.blkBytes)) := by
  obtain ⟨hch, hhead, hin⟩ := hready
  rw [blkEffect, if_neg (not_not_intro hch), if_neg (not_lt_of_ge hhead), if_neg (not_lt_of_ge hin), if_pos hfit]

theorem blkEffect_of_overflow {s : State} (hready : adpcmBlkReady s)
    (hover : s.outCap < regNat s.outOff + blockOutput (isStereo s) s.blkBytes) :
    blkEffect s = .decoding (isStereo s)
      (flagIf (headerClamps (s.blockAt (regNat s.inOff)) (isStereo s)) .predclamp ||| Flag.outovf.mask) (regNat s.outOff)
      ((blockSamples (s.blockAt (regNat s.inOff)) (isStereo s) s.blkBytes).take ((s.outCap - regNat s.outOff) / 2))
      (setsAfter (s.blockAt (regNat s.inOff)) (isStereo s) s.blkBytes ((s.outCap - regNat s.outOff) / 2)) := by
  obtain ⟨hch, hhead, hin⟩ := hready
  rw [blkEffect, if_neg (not_not_intro hch), if_neg (not_lt_of_ge hhead), if_neg (not_lt_of_ge hin),
    if_neg (not_le_of_gt hover)]

/-- Settles O18: the effect writes all samples of the block. -/
theorem adpcmBlkCompletes : Obligations.AdpcmBlkCompletes := by
  intro s hready hfit
  have hlen := blockSamples_length (s.blockAt (regNat s.inOff)) _ _ hready.2.1
  refine ⟨_, execAdpcmBlk_eq s, ?_⟩
  rw [blkEffect_of_fits hready hfit]
  exact Effect.decoding_leaves _ _ _ _ (congrArg (_ + ·) hlen) rfl

/-- Settles O19: the effect is BLKSKIP alone. -/
theorem adpcmBlkSkipsShortBlocks : Obligations.AdpcmBlkSkipsShortBlocks := by
  intro s hch hskip
  refine (execAdpcmBlk_eq s).trans ?_
  rw [blkEffect_of_skip hch hskip]
  rfl

/-- Settles O20: the effect writes the samples that fit, and its sets are those after them. -/
theorem adpcmBlkOverflows : Obligations.AdpcmBlkOverflows := by
  intro s hready hover
  have hlen := blockSamples_length (s.blockAt (regNat s.inOff)) _ _ hready.2.1
  refine ⟨_, execAdpcmBlk_eq s, ?_⟩
  rw [blkEffect_of_overflow hready hover]
  exact Effect.decoding_leaves _ _ _ _ (by rw [List.length_take_of_le (by omega)]) (BitVec.or_assoc ..).symm

-- The floor test of R126.

/-- The set of R126: pair 0 of the tables, and a step size at the floor. -/
def Predictor.atFloor (p : Predictor) : Prop := p.coeff1 = 256#32 ∧ p.coeff2 = 0#32 ∧ p.delta = 16#32

/-- R115 (g): pair 0 predicts the last sample, nibble 0 adds nothing, and 230 * 16 / 256 is below the floor. -/
theorem expandNibble_atFloor {p : Predictor} (h : p.atFloor) :
    expandNibble p 0#4 = (p.sample1, { p with sample2 := p.sample1 }) := by
  obtain ⟨h1, h2, hd⟩ := h
  have hpair : p.tablePair := ⟨0, h1, h2⟩
  have hpredict : predict p = p.sample1.toInt := by
    rw [predict_of_tablePair hpair, h1, h2]
    exact (congrArg (Int.tdiv · 256) (by simp)).trans (Int.mul_tdiv_cancel _ (by decide : (256 : Int) ≠ 0))
  have hsample : newSample p 0#4 = p.sample1 := by
    rw [newSample_eq, hpredict, show signedNibble 0#4 = 0 by decide, Int.zero_mul, Int.add_zero]
    exact BitVec.ofInt_toInt
  have hdelta : toReg (newDelta p 0#4) = p.delta := by rw [newDelta_eq, hd]; decide
  rw [expandNibble, hsample, hdelta]

theorem playSamples_atFloor (n : Nat) {p : Predictor} (q : Predictor) (h : p.atFloor) :
    playSamples (List.replicate n (.ch0, 0#4)) p q = List.replicate n p.sample1 := by
  induction n generalizing p with
  | zero => rfl
  | succ n ih =>
    rw [List.replicate_succ, playSamples, expandNibble_atFloor h]
    exact congrArg (p.sample1 :: ·) (ih h)

theorem playSets_atFloor (n : Nat) {p : Predictor} (q : Predictor) (h : p.atFloor) :
    (playSets (List.replicate n (.ch0, 0#4)) p q).1.atFloor := by
  induction n generalizing p with
  | zero => exact h
  | succ n ih =>
    rw [List.replicate_succ, playSets, expandNibble_atFloor h]
    exact ih h

/-- The codes of zero bytes. -/
theorem dataCodes_zero {rd : Nat → Byte} (n j : Nat) (h : ∀ i, j ≤ i → i < j + n → rd i = 0#8) :
    dataCodes rd false n j = List.replicate (2 * n) (.ch0, 0#4) := by
  induction n generalizing j with
  | zero => rfl
  | succ n ih =>
    rw [dataCodes_mono_succ, h j (by omega) (by omega), ih (j + 1) fun i hlo hhi => h i (by omega) (by omega)]
    rfl

theorem headerSet_atFloor {rd : Nat → Byte} (hindex : rd 0 = 0#8) (hdelta : fieldAt rd 1 = 16#16) :
    (headerSet rd false 0).atFloor := by
  have hpair : predIndex (rd 0).toNat = 0 := by rw [hindex]; rfl
  exact ⟨(congrArg (fun i : Fin 7 => toReg adaptCoeff1[i]) hpair).trans rfl,
    (congrArg (fun i : Fin 7 => toReg adaptCoeff2[i]) hpair).trans rfl, (congrArg widen hdelta).trans (by decide)⟩

/-- Settles O17: the header loads a set at the floor, and every code is nibble 0 of channel 0. -/
theorem floorHoldsForAWholeBlock : Obligations.FloorHoldsForAWholeBlock := by
  intro s hready hmono hfit hindex hdelta hzero
  have hst : isStereo s = false := by rw [isStereo, hmono]; rfl
  have hfloor := headerSet_atFloor (rd := s.blockAt (regNat s.inOff)) hindex hdelta
  have hcodes : blockCodes (s.blockAt (regNat s.inOff)) false s.blkBytes =
      List.replicate (2 * (s.blkBytes - 7)) (.ch0, 0#4) :=
    dataCodes_zero _ _ fun i hlo hhi => hzero i hlo (by simp only [headerSize] at hlo hhi; omega)
  obtain ⟨t, ht, hout, -, hrest⟩ := adpcmBlkCompletes s hready (by rwa [hst])
  refine ⟨t, ht, ?_, ?_⟩
  · rw [hrest, hst, blockSets, hcodes, List.take_replicate]
    exact (playSets_atFloor _ _ hfloor).2.2
  · rw [hst, blockSamples, hcodes, playSamples_atFloor _ _ hfloor] at hout
    exact hout

-- The step size after a block decode (R115 (c)).

/-- The predictor set of a channel among the two. -/
def setOf (pq : Predictor × Predictor) : Chan → Predictor
  | .ch0 => pq.1
  | .ch1 => pq.2

/-- A channel that has expanded a code, or had a step size in range before, has one in range. -/
theorem playSets_deltaInRange {cs : List (Chan × Nibble)} {p q : Predictor} {c : Chan}
    (h : (∃ n, (c, n) ∈ cs) ∨ (setOf (p, q) c).deltaInRange) : (setOf (playSets cs p q) c).deltaInRange := by
  induction cs generalizing p q with
  | nil => exact h.resolve_left nofun
  | cons dn cs ih =>
    obtain ⟨d, n⟩ := dn
    by_cases hd : c = d
    · subst hd
      cases c <;> exact ih (.inr (expandNibble_deltaInRange _ _))
    · have hrest : (∃ n, (c, n) ∈ cs) ∨ (setOf (p, q) c).deltaInRange := by simpa [hd] using h
      cases d with
      | ch0 => exact ih (by cases c; exact absurd rfl hd; exact hrest)
      | ch1 => exact ih (by cases c; exact hrest; exact absurd rfl hd)

/-- One data byte has a code for every channel decoded. -/
theorem exists_mem_dataCodes (rd : Nat → Byte) {stereo : Bool} {n : Nat} (j : Nat) (hn : 0 < n) {c : Chan}
    (hc : c = .ch0 ∨ stereo = true) : ∃ m, (c, m) ∈ dataCodes rd stereo n j := by
  obtain ⟨n, rfl⟩ := Nat.exists_eq_succ_of_ne_zero hn.ne'
  rw [dataCodes]
  cases c with
  | ch0 => exact ⟨_, List.mem_cons_self⟩
  | ch1 =>
    rw [hc.resolve_left nofun]
    exact ⟨_, List.mem_cons_of_mem _ List.mem_cons_self⟩

theorem blockSets_deltaInRange (rd : Nat → Byte) {stereo : Bool} {bs : Nat} (q : Predictor) (hbs : headerSize stereo < bs)
    {c : Chan} (hc : c = .ch0 ∨ stereo = true) : (setOf (blockSets rd stereo bs (2 * bs) q) c).deltaInRange := by
  have hall : (blockCodes rd stereo bs).take (2 * bs - 2 * channelCount stereo) = blockCodes rd stereo bs := by
    refine List.take_of_length_le ?_
    rw [blockCodes, dataCodes_length, headerSize_eq]
    omega
  rw [blockSets, hall]
  exact playSets_deltaInRange (.inl (exists_mem_dataCodes rd _ (by omega) hc))

end Sys2Proof.Machine
end

section
/-! PROOF. What ADPCM.DEC leaves, read off its effect, and that a host's walk with ADPCM.BLK over the same blocks leaves the
same (spec/41_adpcm.md R115, R122, R123, R174); the obligations about ADPCM.DEC. -/

namespace Sys2Proof.Machine

-- The effect in each of its cases.

theorem decEffect_of_checked {s : State} (hch : channelsLegal s = true) (hB : regNat s.blockAlign ≠ 0)
    (hlen : regNat s.len ≤ s.inCap) : decEffect s = blocksEffect s := by
  rw [decEffect, if_neg (not_or_intro (not_not_intro hch) hB), if_neg (not_lt_of_ge hlen)]

theorem decEffect_of_ready {s : State} (hready : adpcmDecReady s) : decEffect s = blocksEffect s := by
  obtain ⟨hch, hlen, hhead⟩ := hready
  exact decEffect_of_checked hch ((headerSize_pos _).trans_le hhead).ne' hlen

theorem blocksEffect_of_skip {s : State} (h : regNat s.blockAlign < headerSize (isStereo s) ∨ s.blockCount = 0) :
    blocksEffect s = .writing (flagIf (decide (regNat s.len % regNat s.blockAlign ≠ 0)) .traildrop |||
      flagIf (decide (s.blockCount ≠ 0)) .blkskip) 0 [] := if_pos h

theorem blocksEffect_of_fits {s : State} (hhead : headerSize (isStereo s) ≤ regNat s.blockAlign) (hnb : s.blockCount ≠ 0)
    (hfit : s.blockCount * blockOutput (isStereo s) (regNat s.blockAlign) ≤ s.outCap) :
    blocksEffect s = .decoding (isStereo s) (flagIf (decide (regNat s.len % regNat s.blockAlign ≠ 0)) .traildrop |||
        flagIf (s.clampsFrom (regNat s.blockAlign) s.blockCount 0) .predclamp) 0
      (s.samplesFrom (regNat s.blockAlign) s.blockCount 0)
      (setsAfter (s.blockAt ((s.blockCount - 1) * regNat s.blockAlign)) (isStereo s) (regNat s.blockAlign)
        (2 * regNat s.blockAlign)) := by
  rw [blocksEffect, if_neg (not_or_intro (not_lt_of_ge hhead) hnb), if_pos hfit]

theorem blocksEffect_of_overflow {s : State} (hhead : headerSize (isStereo s) ≤ regNat s.blockAlign)
    (hover : s.outCap < s.blockCount * blockOutput (isStereo s) (regNat s.blockAlign)) :
    let K := s.outCap / 2
    let P := blockOutput (isStereo s) (regNat s.blockAlign) / 2
    blocksEffect s = .decoding (isStereo s) (flagIf (decide (regNat s.len % regNat s.blockAlign ≠ 0)) .traildrop |||
        flagIf (s.clampsFrom (regNat s.blockAlign) (K / P + 1) 0) .predclamp ||| Flag.outovf.mask) 0
      ((s.samplesFrom (regNat s.blockAlign) s.blockCount 0).take K)
      (setsAfter (s.blockAt (K / P * regNat s.blockAlign)) (isStereo s) (regNat s.blockAlign) (K % P)) := by
  have hnb : s.blockCount ≠ 0 := fun h => by simp [h] at hover
  rw [blocksEffect, if_neg (not_or_intro (not_lt_of_ge hhead) hnb), if_neg (not_le_of_gt hover)]

-- The samples and the clamps of a stream of blocks, as the statements write them.

theorem State.clampsFrom_zero (s : State) (B n : Nat) :
    s.clampsFrom B n 0 = (List.range n).any fun k => headerClamps (s.blockAt (k * B)) (isStereo s) := by
  rw [State.clampsFrom, List.range_eq_range']

theorem State.samplesFrom_zero (s : State) (B n : Nat) : s.samplesFrom B n 0 = streamSamples s B n := by
  rw [State.samplesFrom, streamSamples, List.range_eq_range']

theorem State.samplesFrom_add (s : State) (B m n k : Nat) :
    s.samplesFrom B (m + n) k = s.samplesFrom B m k ++ s.samplesFrom B n (k + m) := by
  rw [State.samplesFrom, ← List.range'_append_1, List.flatMap_append]
  rfl

/-- Where OUT holds a stream of blocks, it holds each block at its own offset (R123). -/
theorem OutHolds.block {s t : State} {B n k : Nat} (h : OutHolds t 0 (s.samplesFrom B n 0))
    (hhead : headerSize (isStereo s) ≤ B) (hk : k < n) :
    OutHolds t (k * blockOutput (isStereo s) B) (blockSamples (s.blockAt (k * B)) (isStereo s) B) := by
  obtain ⟨m, rfl⟩ := Nat.exists_eq_add_of_lt hk
  rw [Nat.add_assoc, State.samplesFrom_add, State.samplesFrom_succ, OutHolds_append, OutHolds_append,
    s.samplesFrom_length k 0 hhead, Nat.zero_add, Nat.zero_add] at h
  exact h.2.1

/-- Settles O21: with no block the effect writes nothing, otherwise all samples of all blocks. -/
theorem adpcmDecCompletes : Obligations.AdpcmDecCompletes := by
  intro s hready hfit
  refine ⟨_, execAdpcmDec_eq s, ?_⟩
  rw [decEffect_of_ready hready]
  obtain ⟨-, -, hhead⟩ := hready
  by_cases hnb : s.blockCount = 0
  · rw [blocksEffect_of_skip (.inr hnb), AdpcmDecDone]
    simp only [hnb]
    refine ⟨nofun, fun a _ => rfl, ?_⟩
    simp [Effect.apply_writing, flagIf]
  · have hlen := (Nat.zero_add _).trans (s.samplesFrom_length s.blockCount 0 hhead)
    obtain ⟨hout, hother, hfields⟩ := Effect.decoding_leaves _ _ _ s hlen (BitVec.or_assoc ..).symm
    rw [blocksEffect_of_fits hhead hnb hfit]
    refine ⟨fun k hk => hout.block hhead hk, hother, ?_⟩
    rw [if_neg hnb, if_neg hnb, ← State.clampsFrom_zero]
    exact hfields

/-- Settles O22: the effect writes nothing, and adds the two informational flags. -/
theorem adpcmDecSkipsShortBlocks : Obligations.AdpcmDecSkipsShortBlocks := by
  intro s hch hB hlen hshort
  refine (execAdpcmDec_eq s).trans ?_
  rw [decEffect_of_checked hch hB hlen, blocksEffect_of_skip (.inl hshort), BitVec.or_assoc]
  rfl

/-- Settles O23: the effect writes the samples that fit, and its sets are those of the block reached. -/
theorem adpcmDecOverflows : Obligations.AdpcmDecOverflows := by
  intro s hready hover
  have hall := s.samplesFrom_length s.blockCount 0 hready.2.2
  have htake : ((s.samplesFrom (regNat s.blockAlign) s.blockCount 0).take (s.outCap / 2)).length = s.outCap / 2 :=
    List.length_take_of_le (by omega)
  refine ⟨_, execAdpcmDec_eq s, ?_⟩
  rw [decEffect_of_ready hready, blocksEffect_of_overflow hready.2.2 hover, ← State.clampsFrom_zero,
    ← State.samplesFrom_zero]
  refine Effect.decoding_leaves _ _ _ _ (by rw [htake, Nat.zero_add]) ?_
  rw [← BitVec.or_assoc, ← BitVec.or_assoc]
  rfl

-- The step size after a block decode (R115 (c)).

theorem Effect.ch_apply_decoding {stereo : Bool} (flags : Word) (start : Nat) (vs : List Half)
    (sets : Predictor × Predictor) (s : State) {c : Chan} (hc : c = .ch0 ∨ stereo = true) :
    ((Effect.decoding stereo flags start vs sets).apply s).ch c = setOf sets c := by
  cases c with
  | ch0 => rfl
  | ch1 => rw [hc.resolve_left nofun]; rfl

/-- Settles O55: every channel decoded has expanded a code of the last block. -/
theorem blockDecodeDeltaStaysInRange : Obligations.BlockDecodeDeltaStaysInRange := by
  refine ⟨fun s hready hbs hfit => ⟨_, execAdpcmBlk_eq s, fun c hc => ?_⟩,
    fun s hready hB hnb hfit => ⟨_, execAdpcmDec_eq s, fun c hc => ?_⟩⟩
  · rw [blkEffect_of_fits hready hfit, Effect.ch_apply_decoding _ _ _ _ _ hc]
    exact blockSets_deltaInRange _ _ hbs hc
  · rw [decEffect_of_ready hready, blocksEffect_of_fits hB.le hnb hfit, Effect.ch_apply_decoding _ _ _ _ _ hc]
    exact blockSets_deltaInRange _ _ hB hc

-- The walk of R123.

theorem Memory.setBytes_append (m : Memory) (off : Nat) (as bs : List Byte) :
    m.setBytes off (as ++ bs) = (m.setBytes off as).setBytes (off + as.length) bs := by
  induction as generalizing m off with
  | nil => rfl
  | cons a as ih =>
    rw [List.cons_append, Memory.setBytes, ih, List.length_cons, Nat.add_comm as.length 1, ← Nat.add_assoc]
    rfl

theorem flagIf_or_flagIf (a b : Bool) (f : Flag) : flagIf a f ||| flagIf b f = flagIf (a || b) f := by
  simpa using flagIf_or a b f 0#32

/-- A decoding that goes on where another ended is one decoding. -/
theorem Effect.apply_decoding_decoding (stereo : Bool) (flags flags' : Word) (start : Nat) (vs vs' : List Half)
    (sets sets' : Predictor × Predictor) (s : State) :
    (Effect.decoding stereo flags' (start + 2 * vs.length) vs' sets').apply
        ((Effect.decoding stereo flags start vs sets).apply s) =
      (Effect.decoding stereo (flags ||| flags') start (vs ++ vs') sets').apply s := by
  have hbytes : sampleBytes (vs ++ vs') = sampleBytes vs ++ sampleBytes vs' := List.flatMap_append
  simp only [Effect.apply_decoding, hbytes, Memory.setBytes_append, sampleBytes_length, List.length_append, Nat.mul_add,
    Nat.add_assoc, BitVec.or_assoc]
  cases stereo <;> rfl

theorem regNat_ofNat {s : State} {n : Nat} (h : n ≤ s.inCap ∨ n ≤ s.outCap) : regNat (BitVec.ofNat 32 n) = n := by
  have hin : s.inCap < 2 ^ 31 := s.params.inCap.isLt
  have hout : s.outCap < 2 ^ 31 := s.params.outCap.isLt
  exact Nat.mod_eq_of_lt (by omega)

/-- The host's registers set for block k. -/
def State.atBlock (s : State) (B k : Nat) : State :=
  { s with inOff := BitVec.ofNat 32 (k * B), blkSize := BitVec.ofNat 32 B }

/-- The walk's state once block k is decoded. -/
def State.afterBlock (s : State) (B k : Nat) : State :=
  (Effect.decoding (isStereo s) (flagIf (headerClamps (s.blockAt (k * B)) (isStereo s)) .predclamp) (regNat s.outOff)
    (blockSamples (s.blockAt (k * B)) (isStereo s) B)
    (setsAfter (s.blockAt (k * B)) (isStereo s) B (2 * B))).apply (s.atBlock B k)

/-- The conditions under which `n` blocks of the walk, from block k on, decode without a fault. -/
structure State.WalkReady (s : State) (B n k : Nat) : Prop where
  channels : channelsLegal s = true
  align : regNat s.blockAlign = B
  header : headerSize (isStereo s) ≤ B
  inside : (k + n) * B ≤ s.inCap
  fits : regNat s.outOff + n * blockOutput (isStereo s) B ≤ s.outCap

/-- The next block of the walk lies in IN, and its output fits. -/
theorem State.WalkReady.first {s : State} {B n k : Nat} (h : s.WalkReady B (n + 1) k) :
    k * B + B ≤ s.inCap ∧ regNat s.outOff + blockOutput (isStereo s) B ≤ s.outCap := by
  constructor
  · rw [← Nat.succ_mul]
    exact (Nat.mul_le_mul_right B (by omega)).trans h.inside
  · have := h.fits
    rw [Nat.succ_mul] at this
    omega

/-- One command of the walk decodes block k. -/
theorem exec_atBlock {s : State} {B n k : Nat} (h : s.WalkReady B (n + 1) k) :
    exec .adpcmBlk (s.atBlock B k) = .next (s.afterBlock B k) := by
  obtain ⟨hin, hfit⟩ := h.first
  have hoff : regNat (s.atBlock B k).inOff = k * B := regNat_ofNat (s := s) (.inl (by omega))
  have hsize : regNat (s.atBlock B k).blkSize = B := regNat_ofNat (s := s) (.inl (by omega))
  have hbs : (s.atBlock B k).blkBytes = B := by
    rw [State.blkBytes, hsize, show regNat (s.atBlock B k).blockAlign = B from h.align, clampBlock_self]
  have heff := blkEffect_of_fits (s := s.atBlock B k)
    ⟨h.channels, by rw [hbs]; exact h.header, by rw [hoff, hbs]; exact hin⟩ (by rw [hbs]; exact hfit)
  rw [hoff, hbs] at heff
  exact (execAdpcmBlk_eq _).trans (congrArg (fun e => Host.Outcome.next (Effect.apply e _)) heff)

theorem State.WalkReady.outOff_afterBlock {s : State} {B n k : Nat} (h : s.WalkReady B (n + 1) k) :
    regNat (s.afterBlock B k).outOff =
      regNat s.outOff + 2 * (blockSamples (s.blockAt (k * B)) (isStereo s) B).length := by
  rw [State.afterBlock, Effect.apply_decoding]
  refine regNat_ofNat (s := s) (.inr ?_)
  rw [blockSamples_length _ _ _ h.header]
  exact h.first.2

theorem State.WalkReady.afterBlock {s : State} {B n k : Nat} (h : s.WalkReady B (n + 1) k) :
    (s.afterBlock B k).WalkReady B n (k + 1) where
  channels := h.channels
  align := h.align
  header := h.header
  inside := by rw [Nat.add_right_comm]; exact h.inside
  fits := by
    have hall := h.fits
    rw [Nat.succ_mul] at hall
    rw [h.outOff_afterBlock, blockSamples_length _ _ _ h.header]
    show _ + _ + n * blockOutput (isStereo s) B ≤ s.outCap
    omega

theorem blkWalk_succ {B n k : Nat} {s : State} (h : s.WalkReady B (n + 1) k) :
    blkWalk B (n + 1) k s = blkWalk B n (k + 1) (s.afterBlock B k) := by
  rw [blkWalk, ← State.atBlock, exec_atBlock h]

/-- The walk is one decoding of all its samples, the host's two registers aside. -/
theorem blkWalk_eq_decoding {B n k : Nat} {s : State} (h : s.WalkReady B (n + 1) k) :
    blkWalk B (n + 1) k s = .next ((Effect.decoding (isStereo s) (flagIf (s.clampsFrom B (n + 1) k) .predclamp)
      (regNat s.outOff) (s.samplesFrom B (n + 1) k)
      (setsAfter (s.blockAt ((k + n) * B)) (isStereo s) B (2 * B))).apply (s.atBlock B (k + n))) := by
  induction n generalizing k s with
  | zero =>
    rw [blkWalk_succ h, State.samplesFrom_succ, State.clampsFrom_succ, State.samplesFrom, State.clampsFrom,
      List.range'_zero, List.flatMap_nil, List.any_nil, List.append_nil, Bool.or_false]
    rfl
  | succ n ih =>
    rw [blkWalk_succ h, State.samplesFrom_succ, State.clampsFrom_succ, ← flagIf_or_flagIf,
      ← Effect.apply_decoding_decoding (sets := setsAfter (s.blockAt (k * B)) (isStereo s) B (2 * B)),
      ← h.outOff_afterBlock, ← Nat.add_assoc, Nat.add_right_comm]
    exact ih h.afterBlock

/-- Settles O24: both are one decoding of the same samples that ends with the same sets, or touch nothing. -/
theorem adpcmDecEqualsBlockWalk : Obligations.AdpcmDecEqualsBlockWalk := by
  intro s hready hfit
  have hdec : exec .adpcmDec s = .next ((blocksEffect s).apply s) := by
    rw [← decEffect_of_ready hready]
    exact execAdpcmDec_eq s
  obtain ⟨hch, hlen, hhead⟩ := hready
  cases hnb : s.blockCount with
  | zero =>
    rw [blocksEffect_of_skip (.inr hnb)] at hdec
    exact ⟨_, _, hdec, rfl, rfl, rfl, rfl, rfl⟩
  | succ n =>
    rw [blocksEffect_of_fits hhead (by omega) hfit, hnb] at hdec
    have hwalk : (s.setOutOff 0).WalkReady (regNat s.blockAlign) (n + 1) 0 := by
      refine ⟨hch, rfl, hhead, ?_, ?_⟩
      · rw [← hnb, Nat.zero_add]
        exact (Nat.div_mul_le_self _ _).trans hlen
      · rw [← hnb]
        exact (Nat.zero_add _).trans_le hfit
    refine ⟨_, _, hdec, blkWalk_eq_decoding hwalk, ?_⟩
    rw [Nat.zero_add]
    exact ⟨rfl, rfl, rfl, rfl⟩

end Sys2Proof.Machine
end

section
/-! PROOF. What the effect of a decode command is read off, and that the same effect twice leaves what it leaves once
(spec/41_adpcm.md R127; spec/40_alaw.md R104); the obligations about independence and repetition. -/

namespace Sys2Proof.Machine

/-- Two states that agree in all that a decode command reads, its starting offset aside: the parameters, the registers the
host alone writes, and the bytes of IN. -/
def SameReads (s t : State) : Prop :=
  t.params = s.params ∧ t.fmtTag = s.fmtTag ∧ t.channels = s.channels ∧ t.blockAlign = s.blockAlign ∧ t.len = s.len ∧
  t.inOff = s.inOff ∧ t.blkSize = s.blkSize ∧ t.inMem = s.inMem ∧ t.epoch = s.epoch

theorem SameInputs.sameReads {s t : State} (h : SameInputs s t) : SameReads s t := by
  obtain ⟨hparams, htag, hch, halign, hlen, hoff, hsize, hin, _, hepoch⟩ := h
  exact ⟨hparams, htag, hch, halign, hlen, hoff, hsize, hin, hepoch⟩

theorem Effect.sameReads_apply (e : Effect) (s : State) : SameReads s (e.apply s) :=
  ⟨rfl, rfl, rfl, rfl, rfl, rfl, rfl, rfl, rfl⟩

/-- A decode command: one of the whole buffer, or ADPCM.BLK from the same OUT_OFF in both states. -/
def DecodesFromSameStart (i : Instr) (s t : State) : Prop :=
  wholeBuffer i = true ∨ (i = .adpcmBlk ∧ t.outOff = s.outOff)

/-- The effect of a decode command is read off nothing but these fields and the offset it starts at (R127). -/
theorem effect_eq_of_sameReads {i : Instr} {s t : State} (hi : DecodesFromSameStart i s t) (h : SameReads s t) :
    effect i t = effect i s := by
  obtain ⟨params, status, fmtTag, channels, blockAlign, len, inOff, blkSize, outOff, result, ch0, ch1, inMem, outMem,
    epoch, host, readData⟩ := s
  obtain ⟨rfl, rfl, rfl, rfl, rfl, rfl, rfl, rfl, rfl⟩ := h
  rcases hi with hwhole | ⟨rfl, rfl⟩
  · cases i with
    | adpcmBlk => cases hwhole
    | adpcmNib c n => cases hwhole
    | _ => rfl
  · rfl

-- Which effects leave the cursor alone.

/-- An effect writes the cursor, or ends in ConfigError or InputRange (R172, R173). -/
def Effect.MovesCursorOrRejects (e : Effect) : Prop := e.outOff ≠ none ∨ e.flags &&& 0x00000006#32 ≠ 0#32

theorem Effect.movesCursorOrRejects_writing (flags : Word) (start : Nat) (bs : List Byte) :
    (Effect.writing flags start bs).MovesCursorOrRejects := .inl nofun

theorem Effect.movesCursorOrRejects_decoding (stereo : Bool) (flags : Word) (start : Nat) (vs : List Half)
    (sets : Predictor × Predictor) : (Effect.decoding stereo flags start vs sets).MovesCursorOrRejects := .inl nofun

theorem Effect.movesCursorOrRejects_inrange : (Effect.flagOnly .inrange).MovesCursorOrRejects := .inr (by decide)

theorem Effect.movesCursorOrRejects_cfgerr : (Effect.flagOnly .cfgerr).MovesCursorOrRejects := .inr (by decide)

theorem alawEffect_movesCursorOrRejects (s : State) : (alawEffect s).MovesCursorOrRejects := by
  unfold alawEffect
  split <;> exact Effect.movesCursorOrRejects_writing _ _ _

theorem passEffect_movesCursorOrRejects (s : State) : (passEffect s).MovesCursorOrRejects := by
  unfold passEffect
  split_ifs
  · exact Effect.movesCursorOrRejects_inrange
  · exact Effect.movesCursorOrRejects_writing _ _ _
  · exact Effect.movesCursorOrRejects_writing _ _ _

theorem blocksEffect_movesCursorOrRejects (s : State) : (blocksEffect s).MovesCursorOrRejects := by
  unfold blocksEffect
  dsimp only
  split_ifs
  · exact Effect.movesCursorOrRejects_writing _ _ _
  · exact Effect.movesCursorOrRejects_decoding _ _ _ _ _
  · exact Effect.movesCursorOrRejects_decoding _ _ _ _ _

theorem decEffect_movesCursorOrRejects (s : State) : (decEffect s).MovesCursorOrRejects := by
  unfold decEffect
  split_ifs
  · exact Effect.movesCursorOrRejects_cfgerr
  · exact Effect.movesCursorOrRejects_inrange
  · exact blocksEffect_movesCursorOrRejects s

theorem effect_movesCursorOrRejects {i : Instr} (s : State) (hi : wholeBuffer i = true) :
    (effect i s).MovesCursorOrRejects := by
  cases i with
  | alawDec => exact alawEffect_movesCursorOrRejects s
  | adpcmDec => exact decEffect_movesCursorOrRejects s
  | adpcmBlk => cases hi
  | adpcmNib c n => cases hi
  | pass => exact passEffect_movesCursorOrRejects s
  | dec =>
    rcases effect_dec_cases s with h | h | ⟨_, h⟩ <;> rw [h]
    · exact alawEffect_movesCursorOrRejects s
    · exact passEffect_movesCursorOrRejects s
    · exact decEffect_movesCursorOrRejects s

/-- Settles O37: both states give one effect, and it writes the cursor or the start is the same. -/
theorem decodeIgnoresLeftoverState : Obligations.DecodeIgnoresLeftoverState := by
  intro i s s' hi hin
  have heff := effect_eq_of_sameReads hi hin.sameReads
  refine ⟨_, _, (effect i s).flags, exec_eq i s, exec_eq i s', ?_, rfl, ?_, fun hflags => ?_⟩
  all_goals rw [heff]
  · show s'.outMem.setBytes _ _ = s.outMem.setBytes _ _
    obtain ⟨-, -, -, -, -, -, -, -, hout, -⟩ := hin
    rw [hout]
  · rfl
  · show (effect i s).outOff.getD s'.outOff = (effect i s).outOff.getD s.outOff
    rcases hi with hwhole | ⟨_, hoff⟩
    · have hmoves := (effect_movesCursorOrRejects s hwhole).resolve_right (not_not_intro hflags)
      obtain ⟨o, ho⟩ := Option.ne_none_iff_exists'.mp hmoves
      rw [ho, Option.getD_some, Option.getD_some]
    · rw [hoff]

-- The same effect twice.

theorem State.outByte_putBytes (s : State) (off : Nat) (bs : List Byte) (a : Nat) :
    (s.putBytes off bs).outByte a = if h : off ≤ a ∧ a < off + bs.length then bs[a - off] else s.outByte a := by
  split
  · next h =>
    obtain ⟨i, rfl⟩ := Nat.exists_eq_add_of_le h.1
    simp only [Nat.add_sub_cancel_left]
    exact s.outByte_putBytes_at off bs i (by omega)
  · next h => exact s.outByte_putBytes_other off bs (by omega)

/-- The bytes an effect writes are those it wrote before, and every other byte is left alone both times. -/
theorem Effect.outByte_apply_again (e : Effect) {s v : State} (a : Nat) (hv : v.outByte a = (e.apply s).outByte a) :
    (e.apply v).outByte a = (e.apply s).outByte a := by
  rw [Effect.outByte_apply, State.outByte_putBytes]
  split
  · next h => rw [Effect.outByte_apply, State.outByte_putBytes, dif_pos h]
  · exact hv

theorem getD_getD_self {α : Type} (o : Option α) (x : α) : o.getD (o.getD x) = o.getD x := by
  cases o <;> rfl

/-- Two states with the same bytes of OUT, OUT_OFF, STATUS and predictor sets (R127). -/
def SameOutcome (t u : State) : Prop :=
  (∀ a, u.outByte a = t.outByte a) ∧ u.outOff = t.outOff ∧ u.status = t.status ∧ u.ch0 = t.ch0 ∧ u.ch1 = t.ch1

theorem Effect.apply_again (e : Effect) (s : State) {o : Word} (ho : o = s.outOff ∨ o = (e.apply s).outOff) :
    SameOutcome (e.apply s) (e.apply { e.apply s with outOff := o }) := by
  refine ⟨fun a => e.outByte_apply_again a rfl, ?_, ?_, getD_getD_self _ _, getD_getD_self _ _⟩
  · rcases ho with rfl | rfl
    · rfl
    · exact getD_getD_self _ _
  · show s.status ||| e.flags ||| e.flags = s.status ||| e.flags
    rw [BitVec.or_assoc, BitVec.or_self]

/-- A decode command run again has the effect it had, whatever that changed. -/
theorem exec_again {i : Instr} {s u : State} {o : Word} (ho : o = s.outOff ∨ o = ((effect i s).apply s).outOff)
    (hi : DecodesFromSameStart i s { (effect i s).apply s with outOff := o })
    (hu : exec i { (effect i s).apply s with outOff := o } = .next u) : SameOutcome ((effect i s).apply s) u := by
  rw [eq_apply_of_exec hu, effect_eq_of_sameReads hi ((effect i s).sameReads_apply s)]
  exact (effect i s).apply_again s ho

/-- Settles O38: the second run starts where the first did, with OUT_OFF restored for ADPCM.BLK. -/
theorem decodeTwiceGivesTheSame : Obligations.DecodeTwiceGivesTheSame := by
  intro i s t u ht hu
  obtain rfl := eq_apply_of_exec ht
  rcases hu with ⟨hwhole, hu⟩ | ⟨rfl, hu⟩
  · exact exec_again (.inr rfl) (.inl hwhole) hu
  · exact exec_again (.inl rfl) (.inr ⟨rfl, rfl⟩) hu

end Sys2Proof.Machine
end

section
/-! PROOF. What PASS leaves in OUT, and that DEC is the command its tag selects (spec/42_dispatch_passthrough.md R140, R141,
R143). -/

namespace Sys2Proof.Machine

-- PASS.

/-- The copy of the first `n` bytes of IN to the start of OUT, as an effect. -/
def copyEffect (flags : Word) (n : Nat) (s : State) : Effect := .writing flags 0 ((List.range' 0 n).map s.inByte)

theorem passEffect_of_fits {s : State} (hin : regNat s.len ≤ s.inCap) (hfit : regNat s.len ≤ s.outCap) :
    passEffect s = copyEffect 0#32 (regNat s.len) s := by
  rw [passEffect, if_neg (not_lt_of_ge hin), if_pos hfit, copyEffect]

theorem passEffect_of_overflow {s : State} (hin : regNat s.len ≤ s.inCap) (hover : s.outCap < regNat s.len) :
    passEffect s = copyEffect Flag.outovf.mask s.outCap s := by
  rw [passEffect, if_neg (not_lt_of_ge hin), if_neg (not_le_of_gt hover), copyEffect]

theorem outByte_apply_copyEffect (flags : Word) {n : Nat} (s : State) {a : Nat} (ha : a < n) :
    ((copyEffect flags n s).apply s).outByte a = s.inByte a := by
  have hat := s.outByte_putBytes_at 0 ((List.range' 0 n).map s.inByte) a (by simpa using ha)
  rw [Effect.outByte_apply]
  simpa [copyEffect, Effect.writing] using hat

theorem outSameOutside_apply_copyEffect (flags : Word) (n : Nat) (s : State) :
    OutSameOutside s ((copyEffect flags n s).apply s) 0 n := by
  simpa [copyEffect] using Effect.outSameOutside_apply_writing flags 0 ((List.range' 0 n).map s.inByte) s

theorem apply_copyEffect (flags : Word) (n : Nat) (s : State) :
    (copyEffect flags n s).apply s = { s with
      status := s.status ||| flags
      outMem := ((copyEffect flags n s).apply s).outMem
      outOff := BitVec.ofNat 32 n } := by
  simp [copyEffect, Effect.apply_writing]

/-- Settles O25: LEN bytes are copied, and no flag is added. -/
theorem passCompletes : Obligations.PassCompletes := by
  intro s hin hfit
  refine ⟨_, execPass_eq s, ?_⟩
  rw [passEffect_of_fits hin hfit]
  refine ⟨fun a => outByte_apply_copyEffect _ s, outSameOutside_apply_copyEffect _ _ s, ?_⟩
  simpa [regNat] using apply_copyEffect 0#32 (regNat s.len) s

/-- Settles O26: OUT_CAP bytes are copied, and OUTOVF is added. -/
theorem passOverflows : Obligations.PassOverflows := by
  intro s hin hover
  refine ⟨_, execPass_eq s, ?_⟩
  rw [passEffect_of_overflow hin hover]
  exact ⟨fun a => outByte_apply_copyEffect _ s, outSameOutside_apply_copyEffect _ _ s, apply_copyEffect _ _ s⟩

-- DEC.

theorem exec_dec_of_aLaw {s : State} (h : s.fmtTag = 1#2) : exec .dec s = exec .alawDec s := by
  simp only [exec, execDec, h]
  rfl

theorem exec_dec_of_adpcmMS {s : State} (h : s.fmtTag = 2#2) : exec .dec s = exec .adpcmDec s := by
  simp only [exec, execDec, h]
  rfl

/-- Tags 0 and 3 are passed through (R143). -/
theorem exec_dec_of_passThrough {s : State} (h : s.fmtTag = 0#2 ∨ s.fmtTag = 3#2) : exec .dec s = exec .pass s := by
  rcases h with h | h <;> simp only [exec, execDec, h] <;> rfl

theorem code_eq_zero_or_three {code : BitVec 2} (haLaw : code ≠ 1#2) (hadpcm : code ≠ 2#2) : code = 0#2 ∨ code = 3#2 := by
  revert code
  decide

/-- Settles O27: one equation for each arm of the selection. -/
theorem decIsTheSelectedCommand : Obligations.DecIsTheSelectedCommand := by
  intro s
  split_ifs with haLaw hadpcm
  · exact exec_dec_of_aLaw haLaw
  · exact exec_dec_of_adpcmMS hadpcm
  · exact exec_dec_of_passThrough (code_eq_zero_or_three haLaw hadpcm)

/-- Settles O28: DEC is the selected command, which completes. -/
theorem decCompletes : Obligations.DecCompletes := by
  refine fun s => ⟨fun htag => ?_, fun htag => ?_, fun htag => ?_⟩
  · rw [exec_dec_of_aLaw htag]
    exact alawDecCompletes s
  · rw [exec_dec_of_adpcmMS htag]
    exact adpcmDecCompletes s
  · rw [exec_dec_of_passThrough htag]
    exact passCompletes s

end Sys2Proof.Machine
end

section
/-! PROOF. The two host functions, and that an output space as large as the estimate is large enough for DEC
(spec/43_host_functions.md R152 to R157, R159). -/

namespace Sys2Proof.Machine

-- translateForDevice.

/-- Settles O52: the definition's case split on the tag, LinearPCM against the rest. -/
theorem translateForDeviceResult : Obligations.TranslateForDeviceResult := by
  rintro ⟨tag, channelCount, bitsPerSample, samplesPerSec, blockAlign, avgBytesPerSec, extraData⟩
  cases tag with
  | linearPCM => exact ⟨fun _ => rfl, fun h => absurd rfl h⟩
  | _ => exact ⟨nofun, fun _ => rfl⟩

-- estimateOutputSize: the length check, then an equation for each tag.

theorem estimateOutputSize_of_tooLong {n : Int} (fmt : FormatDescriptor) (h : 2147483647 < n) :
    estimateOutputSize n fmt = .sizeOverflow := if_pos h

theorem estimateOutputSize_natCast {n : Nat} (fmt : FormatDescriptor) (h : n ≤ 2147483647) :
    estimateOutputSize n fmt = estimateSize n fmt := by
  rw [estimateOutputSize, if_neg (by omega), if_neg (by omega), Int.toNat_natCast]

theorem estimateSize_of_passThrough (n : Nat) {fmt : FormatDescriptor}
    (htag : fmt.formatTag = .linearPCM ∨ fmt.formatTag = .other) : estimateSize n fmt = .size n := by
  rcases htag with htag | htag <;> rw [estimateSize, htag]

theorem estimateSize_of_aLaw (n : Nat) {fmt : FormatDescriptor} (htag : fmt.formatTag = .aLaw) :
    estimateSize n fmt = if fmt.bitsPerSample = 0 then .noValue else .size (n * expansionRatio fmt) := by
  rw [estimateSize, htag]
  push_cast
  rfl

theorem estimateSize_of_adpcmMS (n : Nat) {fmt : FormatDescriptor} (htag : fmt.formatTag = .adpcmMS) :
    estimateSize n fmt = if fmt.bitsPerSample = 0 ∨ fmt.blockAlign = 0 then .noValue
      else .size (n * expansionRatio fmt - n / fmt.blockAlign * 7 * fmt.channelCount) := by
  rw [estimateSize, htag]
  push_cast
  rfl

theorem natCast_expansionRatio (fmt : FormatDescriptor) :
    (expansionRatio fmt : Int) = (fmt.channelCount * 16 : Int) / fmt.bitsPerSample := by
  rw [expansionRatio]
  push_cast
  rfl

/-- Settles O53: a non-negative length is a natural number, and each tag has its equation. -/
theorem estimateOutputSizeResult : Obligations.EstimateOutputSizeResult := by
  refine fun n fmt => ⟨estimateOutputSize_of_tooLong fmt, fun hn hle => ?_⟩
  lift n to Nat using hn
  rw [estimateOutputSize_natCast fmt (by omega), ← natCast_expansionRatio]
  refine ⟨estimateSize_of_passThrough n, fun htag hbits => ?_, fun htag hbits => ?_, fun htag hbits halign => ?_,
    fun htag hzero => ?_⟩
  · rw [estimateSize_of_aLaw n htag, if_neg hbits]
  · rw [estimateSize_of_aLaw n htag, if_pos hbits]
  · rw [estimateSize_of_adpcmMS n htag, if_neg (not_or_intro hbits halign)]
  · rw [estimateSize_of_adpcmMS n htag, if_pos hzero]

-- What a DEC that completes writes, for each tag.

/-- DEC completes: it adds none of the four faults, and leaves the cursor behind the `k` bytes it writes (R31, R175). -/
def DecWrites (s : State) (k : Nat) : Prop :=
  ∃ t, exec .dec s = .next t ∧ regNat t.outOff = k ∧ t.status &&& 0x0000000F#32 = s.status &&& 0x0000000F#32

theorem faultBits_traildrop (b : Bool) : flagIf b .traildrop &&& 0x0000000F#32 = 0#32 := by cases b <;> decide

theorem decWrites_of_aLaw {s : State} (htag : s.fmtTag = 1#2) (hfit : 2 * alawCount s ≤ s.outCap) :
    DecWrites s (2 * alawCount s) := by
  obtain ⟨t, hexec, -, -, ht⟩ := (decCompletes s).1 htag hfit
  refine ⟨t, hexec, ?_, ?_⟩
  · rw [ht]; exact regNat_ofNat (.inr hfit)
  · rw [ht]

theorem decWrites_of_adpcmMS {s : State} (htag : s.fmtTag = 2#2) (hready : adpcmDecReady s)
    (hfit : s.blockCount * blockOutput (isStereo s) (regNat s.blockAlign) ≤ s.outCap) :
    DecWrites s (s.blockCount * blockOutput (isStereo s) (regNat s.blockAlign)) := by
  obtain ⟨t, hexec, -, -, ht⟩ := (decCompletes s).2.1 htag hready hfit
  refine ⟨t, hexec, ?_, ?_⟩
  · rw [ht]; exact regNat_ofNat (.inr hfit)
  · rw [ht]
    simp only [BitVec.and_or_distrib_right, faultBits_traildrop, faultBits_predclamp, BitVec.or_zero]

theorem decWrites_of_passThrough {s : State} (htag : s.fmtTag = 0#2 ∨ s.fmtTag = 3#2) (hin : regNat s.len ≤ s.inCap)
    (hfit : regNat s.len ≤ s.outCap) : DecWrites s (regNat s.len) := by
  obtain ⟨t, hexec, -, -, ht⟩ := (decCompletes s).2.2 htag hin hfit
  refine ⟨t, hexec, ?_, ?_⟩ <;> rw [ht]

-- The state that the host sets up, read back as numbers.

theorem regNat_len_hostSetup {s : State} (fmt : FormatDescriptor) {n : Nat} (hn : n ≤ s.inCap) :
    regNat (hostSetup s fmt n).len = n := regNat_ofNat (.inl hn)

theorem regNat_blockAlign_hostSetup (s : State) {fmt : FormatDescriptor} (n : Nat) (halign : fmt.blockAlign < 2 ^ 32) :
    regNat (hostSetup s fmt n).blockAlign = fmt.blockAlign := Nat.mod_eq_of_lt halign

theorem alawCount_hostSetup {s : State} (fmt : FormatDescriptor) {n : Nat} (hn : n ≤ s.inCap) :
    alawCount (hostSetup s fmt n) = n := by
  rw [alawCount, regNat_len_hostSetup fmt hn]
  exact Nat.min_eq_left hn

theorem FormatDescriptor.channelCount_cases {fmt : FormatDescriptor} (h : fmt.wellFormed = true) :
    fmt.channelCount = 1 ∨ fmt.channelCount = 2 := by
  simpa [FormatDescriptor.wellFormed] using h

/-- A well-formed descriptor's channel count is legal, and is the number of channels the block decodes (R151, R26). -/
theorem channels_hostSetup (s : State) {fmt : FormatDescriptor} (n : Nat) (h : fmt.wellFormed = true) :
    channelsLegal (hostSetup s fmt n) = true ∧ channelCount (isStereo (hostSetup s fmt n)) = fmt.channelCount := by
  rcases FormatDescriptor.channelCount_cases h with hc | hc <;>
    simp [channelsLegal, isStereo, hostSetup, regNat, channelCount, hc]

-- The estimate against what the decoders write.

theorem expansionRatio_of_eightBits {fmt : FormatDescriptor} (h : fmt.bitsPerSample = 8) :
    expansionRatio fmt = 2 * fmt.channelCount := by
  rw [expansionRatio, h]
  omega

theorem expansionRatio_of_fourBits {fmt : FormatDescriptor} (h : fmt.bitsPerSample = 4) :
    expansionRatio fmt = 4 * fmt.channelCount := by
  rw [expansionRatio, h]
  omega

/-- The whole blocks of `n` bytes decode to no more than the estimate: it counts 4 bytes a channel for each byte and takes 7 a
channel off each block, where the decoder writes 4 bytes for each byte and takes 24 a channel off (R119, R155, R157). -/
theorem blockOutputs_le_estimate {stereo : Bool} {B : Nat} (n : Nat) (hhead : headerSize stereo ≤ B) :
    n / B * blockOutput stereo B + n / B * 7 * channelCount stereo ≤ n * (4 * channelCount stereo) := by
  have hblock : blockOutput stereo B + 7 * channelCount stereo ≤ B * (4 * channelCount stereo) := by
    rw [headerSize_eq] at hhead
    cases stereo <;> simp only [blockOutput, channelCount, if_true, if_false, Bool.false_eq_true] at hhead ⊢ <;> omega
  calc n / B * blockOutput stereo B + n / B * 7 * channelCount stereo
      = n / B * (blockOutput stereo B + 7 * channelCount stereo) := by ring
    _ ≤ n / B * (B * (4 * channelCount stereo)) := Nat.mul_le_mul_left _ hblock
    _ = n / B * B * (4 * channelCount stereo) := (Nat.mul_assoc ..).symm
    _ ≤ n * (4 * channelCount stereo) := Nat.mul_le_mul_right _ (Nat.div_mul_le_self n B)

-- R157 for each tag: DEC writes some number of bytes, and the estimate is at least that.

/-- DEC, set up for the descriptor and `n` bytes (R159), completes with no fault and writes at most `E` bytes. -/
def DecFitsIn (s : State) (fmt : FormatDescriptor) (n : Nat) (E : Int) : Prop :=
  ∃ t, exec .dec (hostSetup s fmt n) = .next t ∧ (regNat t.outOff : Int) ≤ E ∧
    t.status &&& 0x0000000F#32 = s.status &&& 0x0000000F#32

/-- A DEC that writes `k` bytes wherever they fit completes in an output space that the larger `E` fits in. -/
theorem decFitsIn_of_decWrites {s : State} {fmt : FormatDescriptor} {n k : Nat} {E : Int} (hcap : E ≤ s.outCap)
    (h : k ≤ s.outCap → DecWrites (hostSetup s fmt n) k) (hk : (k : Int) ≤ E) : DecFitsIn s fmt n E := by
  obtain ⟨t, hexec, rfl, hstatus⟩ := h (Int.ofNat_le.mp (hk.trans hcap))
  exact ⟨t, hexec, hk, hstatus⟩

section
variable {s : State} {fmt : FormatDescriptor} {n : Nat} {E : Int} (hn : n ≤ s.inCap)
  (hest : estimateSize n fmt = .size E) (hcap : E ≤ s.outCap)
include hn hest hcap

theorem decFitsIn_of_passThrough (htag : fmt.formatTag = .linearPCM ∨ fmt.formatTag = .other) : DecFitsIn s fmt n E := by
  rw [estimateSize_of_passThrough n htag] at hest
  obtain rfl := Estimate.size.inj hest
  have hlen := regNat_len_hostSetup fmt hn
  have hcode : (hostSetup s fmt n).fmtTag = 0#2 ∨ (hostSetup s fmt n).fmtTag = 3#2 :=
    htag.imp (congrArg formatTagCode) (congrArg formatTagCode)
  refine decFitsIn_of_decWrites hcap (decWrites_of_passThrough hcode (hlen.trans_le hn)) ?_
  rw [hlen]

theorem decFitsIn_of_aLaw (hwf : fmt.wellFormed = true) (htag : fmt.formatTag = .aLaw) (hbits : fmt.bitsPerSample = 8) :
    DecFitsIn s fmt n E := by
  rw [estimateSize_of_aLaw n htag, if_neg (by omega), expansionRatio_of_eightBits hbits] at hest
  obtain rfl := Estimate.size.inj hest
  refine decFitsIn_of_decWrites hcap (decWrites_of_aLaw (s := hostSetup s fmt n) (congrArg formatTagCode htag)) ?_
  rw [alawCount_hostSetup fmt hn]
  rcases FormatDescriptor.channelCount_cases hwf with hc | hc <;> rw [hc] <;> omega

theorem decFitsIn_of_adpcmMS (hwf : fmt.wellFormed = true) (halign : fmt.blockAlign < 2 ^ 32)
    (htag : fmt.formatTag = .adpcmMS) (hbits : fmt.bitsPerSample = 4) (hhead : 7 * fmt.channelCount ≤ fmt.blockAlign) :
    DecFitsIn s fmt n E := by
  obtain ⟨hlegal, hchannels⟩ := channels_hostSetup s n hwf
  have hB := regNat_blockAlign_hostSetup s n halign
  have hlen := regNat_len_hostSetup fmt hn
  have hheader : headerSize (isStereo (hostSetup s fmt n)) ≤ fmt.blockAlign := by rwa [headerSize_eq, hchannels]
  have hpos : fmt.blockAlign ≠ 0 := ((headerSize_pos _).trans_le hheader).ne'
  rw [estimateSize_of_adpcmMS n htag, if_neg (not_or_intro (by omega) hpos), expansionRatio_of_fourBits hbits] at hest
  obtain rfl := Estimate.size.inj hest
  refine decFitsIn_of_decWrites hcap (decWrites_of_adpcmMS (congrArg formatTagCode htag)
    ⟨hlegal, hlen.trans_le hn, hheader.trans_eq hB.symm⟩) ?_
  rw [State.blockCount, hlen, hB, ← hchannels]
  have hcover := blockOutputs_le_estimate n hheader
  zify at hcover
  push_cast
  linarith

end

/-- Settles O54: for each tag DEC writes what its command writes, and the estimate covers it. -/
theorem estimateCoversOutput : Obligations.EstimateCoversOutput := by
  intro s fmt n E hwf halign hn haLaw hadpcm hest hcap
  have hlong : n ≤ 2147483647 := hn.trans (Nat.le_of_lt_succ s.params.inCap.isLt)
  rw [estimateOutputSize_natCast fmt hlong] at hest
  cases htag : fmt.formatTag with
  | linearPCM => exact decFitsIn_of_passThrough hn hest hcap (.inl htag)
  | aLaw => exact decFitsIn_of_aLaw hn hest hcap hwf htag (haLaw htag)
  | adpcmMS =>
    obtain ⟨hbits, hhead⟩ := hadpcm htag
    exact decFitsIn_of_adpcmMS hn hest hcap hwf halign htag hbits hhead
  | other => exact decFitsIn_of_passThrough hn hest hcap (.inr htag)

end Sys2Proof.Machine
end

section
/-! PROOF. Which commands reject in which states, said once (`effect_rejectsExactly`; spec/60_exceptions.md R172, R173,
R176), and the obligations about faults. -/

namespace Sys2Proof.Machine

-- Where a command rejects.

/-- ConfigError's condition (R172). -/
def ConfigIllegal : Instr → State → Prop
  | .adpcmBlk, s => ¬ channelsLegal s
  | .adpcmDec, s => ¬ channelsLegal s ∨ regNat s.blockAlign = 0
  | .dec, s => s.fmtTag = 2#2 ∧ (¬ channelsLegal s ∨ regNat s.blockAlign = 0)
  | .alawDec, _ => False
  | .adpcmNib _ _, _ => False
  | .pass, _ => False

/-- InputRange's condition (R173), for a legal configuration. -/
def InputOutOfRange : Instr → State → Prop
  | .adpcmBlk, s => headerSize (isStereo s) ≤ s.blkBytes ∧ s.inCap < regNat s.inOff + s.blkBytes
  | .adpcmDec, s => s.inCap < regNat s.len
  | .dec, s => s.fmtTag ≠ 1#2 ∧ s.inCap < regNat s.len
  | .pass, s => s.inCap < regNat s.len
  | .alawDec, _ => False
  | .adpcmNib _ _, _ => False

theorem channelsLegal_iff (s : State) : channelsLegal s = true ↔ s.channels = 1#32 ∨ s.channels = 2#32 := by
  simp [channelsLegal, regNat, ← BitVec.toNat_inj]

theorem not_channelsLegal_iff (s : State) : ¬ channelsLegal s = true ↔ s.channels ≠ 1#32 ∧ s.channels ≠ 2#32 := by
  rw [channelsLegal_iff, not_or]

theorem regNat_eq_zero_iff (w : Word) : regNat w = 0 ↔ w = 0#32 := BitVec.toNat_inj (y := 0#32)

theorem configIllegal_adpcmDec_iff (s : State) :
    ConfigIllegal .adpcmDec s ↔ (s.channels ≠ 1#32 ∧ s.channels ≠ 2#32) ∨ s.blockAlign = 0#32 :=
  or_congr (not_channelsLegal_iff s) (regNat_eq_zero_iff s.blockAlign)

theorem not_configIllegal_adpcmDec {s : State} (hch : channelsLegal s = true) (hB : s.blockAlign ≠ 0#32) :
    ¬ ConfigIllegal .adpcmDec s :=
  not_or_intro (not_not_intro hch) ((regNat_eq_zero_iff s.blockAlign).not.mpr hB)

-- The flags of a command that does not reject.

/-- A word of flags that come with no rejection: OUTOVF and the informational ones (R174, R175). -/
def NoRejection (w : Word) : Prop := w &&& ~~~0x00000708#32 = 0#32

theorem NoRejection.zero : NoRejection 0#32 := BitVec.zero_and

theorem NoRejection.or {a b : Word} (ha : NoRejection a) (hb : NoRejection b) : NoRejection (a ||| b) := by
  rw [NoRejection, BitVec.and_or_distrib_right, ha, hb, BitVec.or_zero]

theorem noRejection_outovf : NoRejection Flag.outovf.mask := rfl

theorem NoRejection.flagIf {f : Flag} (h : NoRejection f.mask) (b : Bool) : NoRejection (flagIf b f) := by
  cases b with
  | false => exact .zero
  | true => exact h

theorem noRejection_traildrop (b : Bool) : NoRejection (flagIf b .traildrop) := NoRejection.flagIf (f := .traildrop) rfl b

theorem noRejection_blkskip (b : Bool) : NoRejection (flagIf b .blkskip) := NoRejection.flagIf (f := .blkskip) rfl b

theorem noRejection_predclamp (b : Bool) : NoRejection (flagIf b .predclamp) := NoRejection.flagIf (f := .predclamp) rfl b

theorem NoRejection.and_eq_zero {w m : Word} (h : NoRejection w) (hm : ~~~0x00000708#32 &&& m = m) : w &&& m = 0#32 := by
  rw [← hm, ← BitVec.and_assoc, h, BitVec.zero_and]

theorem NoRejection.getLsbD_eq_false {w : Word} (h : NoRejection w) {k : Nat} (hk : (~~~0x00000708#32).getLsbD k = true) :
    w.getLsbD k = false := by
  have hbit := congrArg (BitVec.getLsbD · k) h
  rwa [BitVec.getLsbD_and, hk, Bool.and_true, BitVec.getLsbD_zero] at hbit

/-- An effect is ConfigError alone where `config` holds, else InputRange alone where `range` holds, else no rejection
(R176). -/
structure Effect.RejectsExactly (e : Effect) (config range : Prop) : Prop where
  cfgerr : config → e = .flagOnly .cfgerr
  inrange : ¬ config → range → e = .flagOnly .inrange
  accepted : ¬ config → ¬ range → NoRejection e.flags

-- Each command's effect.

theorem alawEffect_noRejection (s : State) : NoRejection (alawEffect s).flags := by
  unfold alawEffect
  split
  · exact .zero
  · exact noRejection_outovf

theorem blocksEffect_noRejection (s : State) : NoRejection (blocksEffect s).flags := by
  have htrail := noRejection_traildrop (decide (regNat s.len % regNat s.blockAlign ≠ 0))
  unfold blocksEffect
  dsimp only
  split_ifs
  · exact htrail.or (noRejection_blkskip _)
  · exact htrail.or (noRejection_predclamp _)
  · exact (htrail.or (noRejection_predclamp _)).or (noRejection_outovf)

/-- ALAW.DEC and ADPCM.NIB have nothing to reject (R172, R173). -/
theorem Effect.rejectsExactly_false {e : Effect} (h : NoRejection e.flags) : e.RejectsExactly False False :=
  ⟨False.elim, fun _ => False.elim, fun _ _ => h⟩

theorem passEffect_rejectsExactly (s : State) : (passEffect s).RejectsExactly False (s.inCap < regNat s.len) where
  cfgerr := False.elim
  inrange _ hrange := if_pos hrange
  accepted _ hin := by
    rw [passEffect, if_neg hin]
    split
    · exact .zero
    · exact noRejection_outovf

theorem decEffect_rejectsExactly (s : State) :
    (decEffect s).RejectsExactly (¬ channelsLegal s ∨ regNat s.blockAlign = 0) (s.inCap < regNat s.len) where
  cfgerr hconfig := if_pos hconfig
  inrange hconfig hrange := by rw [decEffect, if_neg hconfig, if_pos hrange]
  accepted hconfig hin := by
    rw [decEffect, if_neg hconfig, if_neg hin]
    exact blocksEffect_noRejection s

theorem blkEffect_rejectsExactly (s : State) : (blkEffect s).RejectsExactly (¬ channelsLegal s)
    (headerSize (isStereo s) ≤ s.blkBytes ∧ s.inCap < regNat s.inOff + s.blkBytes) where
  cfgerr hconfig := if_pos hconfig
  inrange hconfig := fun ⟨hhead, hrange⟩ => by
    rw [blkEffect, if_neg hconfig, if_neg (not_lt_of_ge hhead), if_pos hrange]
  accepted hconfig hin := by
    rw [blkEffect, if_neg hconfig]
    split_ifs with hskip hrange hfit
    · exact noRejection_blkskip true
    · exact absurd ⟨Nat.le_of_not_lt hskip, hrange⟩ hin
    · exact noRejection_predclamp _
    · exact (noRejection_predclamp _).or (noRejection_outovf)

theorem Effect.RejectsExactly.congr {e : Effect} {config config' range range' : Prop} (h : e.RejectsExactly config range)
    (hconfig : config' ↔ config) (hrange : range' ↔ range) : e.RejectsExactly config' range' := by
  rwa [hconfig, hrange]

theorem effect_dec_rejectsExactly (s : State) :
    (effect .dec s).RejectsExactly (ConfigIllegal .dec s) (InputOutOfRange .dec s) := by
  by_cases haLaw : s.fmtTag = 1#2
  · have heff : effect .dec s = alawEffect s := by simp only [effect, haLaw]; rfl
    rw [heff]
    exact (Effect.rejectsExactly_false (alawEffect_noRejection s)).congr (by simp [ConfigIllegal, haLaw])
      (by simp [InputOutOfRange, haLaw])
  by_cases hadpcm : s.fmtTag = 2#2
  · have heff : effect .dec s = decEffect s := by simp only [effect, hadpcm]; rfl
    rw [heff]
    exact (decEffect_rejectsExactly s).congr (and_iff_right hadpcm) (and_iff_right haLaw)
  · have heff : effect .dec s = passEffect s := by
      rcases code_eq_zero_or_three haLaw hadpcm with h | h <;> simp only [effect, h] <;> rfl
    rw [heff]
    exact (passEffect_rejectsExactly s).congr (iff_false_intro fun h => hadpcm h.1) (and_iff_right haLaw)

theorem effect_rejectsExactly (i : Instr) (s : State) :
    (effect i s).RejectsExactly (ConfigIllegal i s) (InputOutOfRange i s) := by
  cases i with
  | alawDec => exact Effect.rejectsExactly_false (alawEffect_noRejection s)
  | adpcmDec => exact decEffect_rejectsExactly s
  | adpcmBlk => exact blkEffect_rejectsExactly s
  | adpcmNib c n => exact Effect.rejectsExactly_false .zero
  | pass => exact passEffect_rejectsExactly s
  | dec => exact effect_dec_rejectsExactly s

-- What this says of a command's outcome.

theorem exec_of_configIllegal {i : Instr} {s : State} (h : ConfigIllegal i s) :
    exec i s = .next { s with status := s.status ||| 0x00000002#32 } := by
  rw [exec_eq, (effect_rejectsExactly i s).cfgerr h]
  rfl

theorem exec_of_inputOutOfRange {i : Instr} {s : State} (hconfig : ¬ ConfigIllegal i s) (h : InputOutOfRange i s) :
    exec i s = .next { s with status := s.status ||| 0x00000004#32 } := by
  rw [exec_eq, (effect_rejectsExactly i s).inrange hconfig h]
  rfl

theorem noRejection_of_exec {i : Instr} {s t : State} (h : exec i s = .next t) (hconfig : ¬ ConfigIllegal i s)
    (hin : ¬ InputOutOfRange i s) : ∃ f, NoRejection f ∧ t.status = s.status ||| f := by
  rw [eq_apply_of_exec h]
  exact ⟨_, (effect_rejectsExactly i s).accepted hconfig hin, rfl⟩

theorem getLsbD_or_of_right {a b : Word} {k : Nat} (h : b.getLsbD k = false) : (a ||| b).getLsbD k = a.getLsbD k := by
  rw [BitVec.getLsbD_or, h, Bool.or_false]

/-- A command with a legal configuration leaves CFGERR as it was. -/
theorem cfgerr_of_exec {i : Instr} {s t : State} (h : exec i s = .next t) (hconfig : ¬ ConfigIllegal i s) :
    t.status.getLsbD 1 = s.status.getLsbD 1 := by
  by_cases hrange : InputOutOfRange i s
  · obtain rfl := Outcome_next_inj ((exec_of_inputOutOfRange hconfig hrange).symm.trans h)
    exact getLsbD_or_of_right (by decide)
  · obtain ⟨f, hf, hstatus⟩ := noRejection_of_exec h hconfig hrange
    rw [hstatus, getLsbD_or_of_right (hf.getLsbD_eq_false (by decide))]

/-- A command with its input in range leaves INRANGE as it was, whatever its configuration. -/
theorem inrange_of_exec {i : Instr} {s t : State} (h : exec i s = .next t) (hin : ¬ InputOutOfRange i s) :
    t.status.getLsbD 2 = s.status.getLsbD 2 := by
  by_cases hconfig : ConfigIllegal i s
  · obtain rfl := Outcome_next_inj ((exec_of_configIllegal hconfig).symm.trans h)
    exact getLsbD_or_of_right (by decide)
  · obtain ⟨f, hf, hstatus⟩ := noRejection_of_exec h hconfig hin
    rw [hstatus, getLsbD_or_of_right (hf.getLsbD_eq_false (by decide))]

-- The obligations.

/-- Settles O29: the condition of ConfigError, command by command, taken and not taken. -/
theorem configErrorTaken : Obligations.ConfigErrorTaken := by
  refine ⟨fun s h1 h2 => ?_, fun s h => ?_, fun s t c n h => ?_, fun s t hch h => ?_, fun s t hch hB h => ?_,
    fun s t hlegal h => ?_⟩
  · exact exec_of_configIllegal (i := .adpcmBlk) ((not_channelsLegal_iff s).mpr ⟨h1, h2⟩)
  · have hconfig := (configIllegal_adpcmDec_iff s).mpr h
    exact ⟨exec_of_configIllegal hconfig, fun htag => exec_of_configIllegal (i := .dec) ⟨htag, hconfig⟩⟩
  · rcases h with h | h | h <;> exact cfgerr_of_exec h id
  · exact cfgerr_of_exec h (not_not_intro ((channelsLegal_iff s).mpr hch))
  · exact cfgerr_of_exec h (not_configIllegal_adpcmDec ((channelsLegal_iff s).mpr hch) hB)
  · refine cfgerr_of_exec h fun ⟨htag, hconfig⟩ => ?_
    obtain ⟨hch, hB⟩ := hlegal.resolve_left (not_not_intro htag)
    exact not_configIllegal_adpcmDec ((channelsLegal_iff s).mpr hch) hB hconfig

/-- Settles O30: the condition of InputRange, command by command, taken and not taken. -/
theorem inputRangeTaken : Obligations.InputRangeTaken := by
  refine ⟨fun s hrange => ⟨?_, fun htag => ?_, fun hch hB => ?_⟩, fun s hch hhead hrange => ?_, fun s t h => ?_,
    fun s t c n h => ?_, fun s t hin h => ?_, fun s t hin h => ?_, fun s t hin h => ?_⟩
  · exact exec_of_inputOutOfRange (i := .pass) id hrange
  · rw [exec_dec_of_passThrough htag]
    exact exec_of_inputOutOfRange (i := .pass) id hrange
  · have hdec := exec_of_inputOutOfRange (not_configIllegal_adpcmDec hch hB) hrange
    exact ⟨hdec, fun htag => (exec_dec_of_adpcmMS htag).trans hdec⟩
  · exact exec_of_inputOutOfRange (i := .adpcmBlk) (not_not_intro hch) ⟨hhead, hrange⟩
  · exact inrange_of_exec h id
  · exact inrange_of_exec h id
  · rcases h with h | h <;> exact inrange_of_exec h (not_lt_of_ge hin)
  · exact inrange_of_exec h fun ⟨hhead, hrange⟩ => hin.elim (not_lt_of_ge hhead) (not_le_of_gt hrange)
  · exact inrange_of_exec h fun ⟨htag, hrange⟩ => hin.elim htag (not_le_of_gt hrange)

/-- Settles O36: ConfigError alone, InputRange alone, or no rejection. -/
theorem oneFaultPerCommand : Obligations.OneFaultPerCommand := by
  intro i s t hs h
  by_cases hconfig : ConfigIllegal i s
  · left
    obtain rfl := Outcome_next_inj ((exec_of_configIllegal hconfig).symm.trans h)
    exact hs ▸ BitVec.zero_or
  by_cases hrange : InputOutOfRange i s
  · right; left
    obtain rfl := Outcome_next_inj ((exec_of_inputOutOfRange hconfig hrange).symm.trans h)
    exact hs ▸ BitVec.zero_or
  · right; right
    obtain ⟨f, hf, hstatus⟩ := noRejection_of_exec h hconfig hrange
    rw [hstatus, hs, BitVec.zero_or]
    exact ⟨hf.and_eq_zero (by decide), hf⟩

end Sys2Proof.Machine
end

section
/-! PROOF. The obligation about the commands issued straight after a reset (spec/70_reset_and_hazards.md R191). -/

namespace Sys2Proof.Machine

/-- With LEN 0 ALAW.DEC has no sample to write (R102). -/
theorem exec_alawDec_of_len_zero {s : State} (h : regNat s.len = 0) : exec .alawDec s = .next (s.setOutOff 0) := by
  rw [exec, execAlawDec, alawCount, h, Nat.zero_min]
  rfl

/-- With LEN 0 PASS has no byte to copy, and no range to check (R140). -/
theorem exec_pass_of_len_zero {s : State} (h : regNat s.len = 0) : exec .pass s = .next (s.setOutOff 0) := by
  rw [exec, execPass, h, if_neg (Nat.not_lt_zero _)]
  rfl

/-- From a clear STATUS a rejected configuration leaves CFGERR alone set (R172). -/
theorem exec_of_configIllegal_of_status_zero {i : Instr} {s : State} (hstatus : s.status = 0#32) (h : ConfigIllegal i s) :
    exec i s = .next { s with status := 0x00000002#32 } := by
  rw [exec_of_configIllegal h, hstatus, BitVec.zero_or]

/-- Settles O47: LEN and FMT_TAG are 0, so ALAW.DEC, PASS and DEC (which is PASS) do nothing; CHANNELS is 0, so
the block decodes are rejected; ADPCM.NIB leaves a delta in range from every set. -/
theorem commandsStraightAfterReset : Obligations.CommandsStraightAfterReset := by
  intro p epoch r
  have hpass : exec .pass r = .next r := exec_pass_of_len_zero rfl
  have hconfig : ConfigIllegal .adpcmBlk r :=
    (not_channelsLegal_iff r).mpr (show 0#32 ≠ 1#32 ∧ 0#32 ≠ 2#32 by decide)
  refine ⟨exec_alawDec_of_len_zero rfl, hpass, (exec_dec_of_passThrough (.inl rfl)).trans hpass,
    exec_of_configIllegal_of_status_zero (i := .adpcmDec) rfl (.inl hconfig),
    exec_of_configIllegal_of_status_zero rfl hconfig, fun c n => ?_⟩
  have hnib := exec_eq (.adpcmNib c n) r
  obtain ⟨hlo, hhi, -⟩ := nibbleDeltaStaysInRange.2 c n _ _ hnib
  obtain ⟨hmem, -, hstatus⟩ := (commandWritesOnlyItsOutput _ _ _ hnib).2.2 ⟨c, n, rfl⟩
  exact ⟨_, hnib, hlo, hhi, hmem, hstatus⟩

end Sys2Proof.Machine
end
